-- ==== Sys2Proof/Word.lean ====
section
/-! DEFINITION. The bitstring widths of the spec (R3: every value has a stated width, bit 0 is the least significant),
and the record of the four condition flags (R25). -/

namespace Sys2Proof

/-- A byte of the program text (R41). -/
abbrev Byte := BitVec 8

/-- A T32 halfword (R41, R60). -/
abbrev Half := BitVec 16

/-- A 32-bit byte address; also the width `PCW` of the program counter (R7, R22). -/
abbrev Addr := BitVec 32

/-- A 32-bit word (`XLEN` of R7): only the opaque component `other` and the CPSR view are made of them. -/
abbrev Word := BitVec 32

/-- A 4-bit condition: `firstcond`, or the condition of a slot (R67, R101). -/
abbrev Cond := BitVec 4

/-- The 4-bit `mask` field of `IT` (R60, R68). -/
abbrev Mask := BitVec 4

/-- The 8-bit field `PSTATE.IT[7:0]`, ITSTATE (R23). -/
abbrev ITBits := BitVec 8

/-- The condition flags `PSTATE.N`, `PSTATE.Z`, `PSTATE.C`, `PSTATE.V`, one bit each (R25). -/
structure Flags where
  n : Bool
  z : Bool
  c : Bool
  v : Bool
deriving DecidableEq, Repr

end Sys2Proof
end

