-- ==== Sys2Proof/Syntax.lean ====
section
/-! DEFINITION. The instructions, one constructor per row of spec/opcode_table.json, and the assembler's source line
of the one real instruction (R66). -/

namespace Sys2Proof

/-- The rows of the opcode table (R74). -/
inductive Instr where
  /-- `IT`, encoding T1 (R60, R80): `1011 1111 firstcond mask` with `mask != '0000'`. -/
  | it (firstcond : Cond) (mask : Mask)
  /-- The excluded row: the Miscellaneous 16-bit instructions `1011 1111 xxxx 0000` (R63), which are not `IT`. -/
  | misc16 (x : BitVec 4)
deriving DecidableEq, Repr

/-- A letter `<x>`, `<y>` or `<z>` of the assembler template (R66): `T` (then) or `E` (else). -/
inductive Letter where
  | t
  | e
deriving DecidableEq, Repr

/-- The optional qualifier `<q>` (R70): omitted, `.N` or `.W`. UNVERIFIED (log 23): the spec has the two spellings from
general knowledge. -/
inductive Qualifier where
  | none
  | narrow
  | wide
deriving DecidableEq, Repr

/-- The instruction set an assembler assembles to (R2, R72). -/
inductive ISA where
  | t32
  | a32
deriving DecidableEq, Repr

/-- A source line `IT{<x>{<y>{<z>}}}{<q>} <cond>` (R66): `letters` holds `<x>`, `<y>`, `<z>` as far as they are written. -/
structure AsmLine where
  letters : List Letter
  qualifier : Qualifier
  cond : Cond
deriving DecidableEq, Repr

end Sys2Proof
end

