-- ==== Sys2Proof/WellFormed.lean ====
section
/-! DEFINITION. Which terms of the syntax the encoding admits: `mask != '0000'` for `IT` (R60, R61), any `x` for the
excluded row (R63), at most three letters in a source line (R66). -/

namespace Sys2Proof

/-- R60, R61: the field `mask` of `IT` carries the constraint `!= 0000`; R63: all sixteen values of `x` occur. -/
def Instr.wf : Instr → Bool
  | .it _ mask => mask != 0#4
  | .misc16 _ => true

/-- R66: `<y>` only after `<x>`, `<z>` only after `<y>`, so a line has zero to three letters. -/
def AsmLine.wf (a : AsmLine) : Bool :=
  a.letters.length ≤ 3

end Sys2Proof
end

