-- ==== Sys2Proof/Decode.lean ====
section
/-! DEFINITION. The decoder (R60 to R65, R74), total on any bytes and rejecting by name, and after it the encoder written
from the same encoding. The classification of every halfword `0xBF00 | b` (R64) stands here too. -/

namespace Sys2Proof

/-- Why the decoder answers no instruction of the opcode table. -/
inductive DecodeError where
  /-- fewer than two bytes are left (R41: the only access is a halfword) -/
  | truncated
  /-- a complete 16-bit instruction that is not of the table (R74) -/
  | outsideTable (hw : Half)
  /-- the first half of a 32-bit instruction (R62), none of which is of the table -/
  | wide (hw : Half)
deriving DecidableEq, Repr

/-- The class R64 gives a halfword. -/
inductive ITClass where
  | notIT
  | valid
  | constrainedUnpredictable
deriving DecidableEq, Repr

/-- `BitCount(v)` (R8): the number of bits of `v` that are `1`. -/
def bitCount {w : Nat} (v : BitVec w) : Nat :=
  (List.range w).countP fun i => v.getLsbD i

/-- `hw[15:8]`, the opcode byte (R60). -/
def opcodeOf (hw : Half) : BitVec 8 := hw.extractLsb' 8 8

/-- `hw[7:4]`, the field `firstcond` (R65). -/
def firstcondOf (hw : Half) : Cond := hw.extractLsb' 4 4

/-- `hw[3:0]`, the field `mask` (R65). -/
def maskField (hw : Half) : Mask := hw.extractLsb' 0 4

/-- R61: a halfword is `IT` if and only if `hw[15:8] == '10111111'` and `hw[3:0] != '0000'`. -/
def isIT (hw : Half) : Bool :=
  opcodeOf hw == 0xBF#8 && maskField hw != 0#4

/-- R62: `hw` is the first half of a 32-bit instruction exactly when `hw[15:11]` is `'11101'`, `'11110'` or `'11111'`. -/
def isWide (hw : Half) : Bool :=
  let top : BitVec 5 := hw.extractLsb' 11 5
  top == 0b11101#5 || top == 0b11110#5 || top == 0b11111#5

/-- The length in bytes of the instruction whose first halfword is `hw` (R62, R115). -/
def instrLength (hw : Half) : Nat :=
  if isWide hw then 4 else 2

/-- R82, the second line of D0's Decode: the encodings that are constrained unpredictable. -/
def badCondition (firstcond : Cond) (mask : Mask) : Bool :=
  firstcond == 0b1111#4 || (firstcond == 0b1110#4 && bitCount mask != 1)

/-- The classes of R64; a halfword whose top byte is not `0xBF` is not `IT`. -/
def classify (hw : Half) : ITClass :=
  if isIT hw then
    if badCondition (firstcondOf hw) (maskField hw) then .constrainedUnpredictable else .valid
  else .notIT

/-- The instruction of one halfword. The excluded row is tested by `mask == '0000'` (R63, R81), so the two rows never
meet. -/
def decodeHalf (hw : Half) : Except DecodeError Instr :=
  if opcodeOf hw == 0xBF#8 then
    if maskField hw == 0#4 then .ok (.misc16 (firstcondOf hw))
    else .ok (.it (firstcondOf hw) (maskField hw))
  else if isWide hw then .error (.wide hw)
  else .error (.outsideTable hw)

/-- R42: the halfword whose bits `[7:0]` are the byte at the lower address. -/
def halfOfBytes (lo hi : Byte) : Half := hi ++ lo

/-- The bytes of a halfword as they are stored, lower address first (R42). -/
def bytesOfHalf (hw : Half) : List Byte :=
  [hw.extractLsb' 0 8, hw.extractLsb' 8 8]

/-- The decoder: reads one instruction from bytes (lower address first) and answers it with the bytes after it. -/
def decode : List Byte → Except DecodeError (Instr × List Byte)
  | lo :: hi :: rest =>
    match decodeHalf (halfOfBytes lo hi) with
    | .ok i => .ok (i, rest)
    | .error e => .error e
  | _ => .error .truncated

/-- The bytes, as stored, of a table word of `nbits` bits (R42); every bit above `nbits` is 0, and the longest instruction
of the table is one halfword (R60). -/
def tableBytes (nbits w : Nat) : List Byte :=
  bytesOfHalf (BitVec.ofNat 16 (w % 2 ^ nbits))

/-- The instruction the decoder reads from a table word. -/
def decodeTableWord (nbits w : Nat) : Option Instr :=
  match decode (tableBytes nbits w) with
  | .ok (i, _) => some i
  | .error _ => none

/-- The halfword of `IT` (R60): `'10111111' : firstcond : mask`. -/
def itHalf (firstcond : Cond) (mask : Mask) : Half :=
  (0xBF#8 ++ firstcond) ++ mask

/-- The halfword of the excluded row (R63): `'10111111' : x : '0000'`. -/
def miscHalf (x : BitVec 4) : Half :=
  (0xBF#8 ++ x) ++ 0#4

/-- The halfword of an instruction; each instruction of the table is one halfword (R60, R74). -/
def encodeHalf : Instr → Half
  | .it firstcond mask => itHalf firstcond mask
  | .misc16 x => miscHalf x

/-- The encoder: the words of an instruction. -/
def encode (i : Instr) : List Half := [encodeHalf i]

/-- The encoded instruction as the bytes stored, lower address first (R42). -/
def encodeBytes (i : Instr) : List Byte := bytesOfHalf (encodeHalf i)

end Sys2Proof
end

