-- ==== Sys2Proof/Config.lean ====
section
/-! DEFINITION. What the spec leaves to the implementation or to the user of the model (R7): the constrained-unpredictable
choice `P_CU_IT`, and the parameter `P_OtherInstr` with what it reads and what it answers (R115). -/

namespace Sys2Proof

/-- `P_CU_IT` (R7, R83): what the PE does with an `IT` whose condition is bad (R82). -/
inductive CUChoice where
  /-- the spec's default: `Unpredictable(ITBadCondition)` -/
  | fault
  /-- `Constraint_UNDEF`: `Undefined(ITBadCondition)` -/
  | undef
  /-- `Constraint_NOP`: a no-operation -/
  | nop
  /-- the condition `'1111'` is taken as `'1110'`, and the instruction executes -/
  | execute
deriving DecidableEq, Repr

/-- Which instantiation of `P_OtherInstr` the run uses (R7, R115). -/
inductive OtherChoice where
  /-- the spec's default (D13): undefined everywhere -/
  | empty
  /-- the spec's second instantiation (R115): `NOP`, `0xBF00`, alone -/
  | nop
  /-- any instantiation of the user's: `Config.otherInstr` -/
  | user
deriving DecidableEq, Repr

/-- What `P_OtherInstr` reads beside `hw1` and `passed` (R115): the state of R20 and, for a 32-bit instruction, the
second halfword it fetches (R62). `ShouldAdvanceIT` is left out: it is TRUE whenever `P_OtherInstr` is called (R102). -/
structure OtherView where
  pc : Addr
  it : ITBits
  flags : Flags
  other : List Word
  hw2 : Option Half
deriving DecidableEq, Repr

/-- What an instruction that is not `IT` does when its condition passes, in the terms R115 leaves it: new flags, a new
`other`, and either the next instruction in line or a branch target. The type keeps obligations (a) (no `PSTATE.IT`, no
`ShouldAdvanceIT`) and (c) (a target is a halfword index, so it is aligned). `comparison` says that the instruction is
`CMP`, `CMN` or `TST` (R109), whose encodings the spec does not give. DESIGN CHOICE (log 4). -/
structure OtherEffect where
  flags : Flags
  other : List Word
  target : Option (BitVec 31)
  comparison : Bool
deriving DecidableEq, Repr

/-- `P_OtherInstr` as the user supplies it (R7, R115): a partial function of `hw1`, the state and `passed`. A free value:
it has no body, so what is proved of it holds of every instantiation (log 4). -/
opaque Config.otherInstr : Half → OtherView → Bool → Option OtherEffect

end Sys2Proof
end

