-- ==== Sys2Proof/Machine/State.lean ====
section
/-! DEFINITION. The state of the PE (R20) with the program text and the parameters of the run beside it (R7, log 1), the
reasons a step can stop (R5, R120), and the state after reset. -/

namespace Sys2Proof.Machine

/-- The program text `P_Text` (R41): the addresses that hold a byte, strictly rising. An address that is not listed
holds no byte at all: `P_Text` is a partial function, and a fetch there refuses (log 13). -/
abbrev Memory := List Host.Cell

/-- Why `IT` is UNDEFINED (R120, R121), with what R120 says the model records: the pc of the `IT` and its halfword. -/
inductive UndefinedReason where
  /-- raised by `checkITEnabled` when ITD controls disable this use of `IT` (R86). Safe: the hardware goes on in an
  Undefined handler, the model stops (log 20). -/
  | itDisabled (pc : Addr) (hw : Half)
  /-- raised by `execIT` for a bad condition under `P_CU_IT == UNDEF` (R83). Safe, as above. -/
  | itBadCondition (pc : Addr) (hw : Half)
deriving DecidableEq, Repr

/-- Why a step is UNPREDICTABLE (R120), with what R120 says the model records. -/
inductive UnpredictableReason where
  /-- raised by `execIT` for a bad condition under `P_CU_IT == FAULT` (R83). Safe: the hardware does one of three things,
  the model stops. -/
  | itBadCondition (pc : Addr) (hw : Half)
  /-- raised by `execIT` inside an IT block (R84). Safe: no permitted behaviour is listed. -/
  | itInsideITBlock (pc : Addr) (hw : Half)
  /-- raised by `beginStep`, and by `otherInstr` through `currentCond`, for one of the fifteen values of `PSTATE.IT` that
  R24 calls not legal. Safe: no instruction of the model produces one. -/
  | inconsistentITSTATE (pc : Addr) (it : ITBits)
  /-- raised by `applyOther` when a taken branch lands on a slot of an IT block (R112); `pc` is the branch's own address
  (log 16). Safe: it is unpredictable what condition the slot then has. -/
  | branchIntoITBlock (pc : Addr) (target : Addr)
deriving DecidableEq, Repr

/-- The two faults of a step (R5). A faulted state is never final. -/
inductive Fault where
  /-- the instruction is UNDEFINED: raised by `raiseUndefined` only. Safe (log 20). -/
  | undefined (reason : UndefinedReason)
  /-- the architecture gives no single meaning: raised by `raiseUnpredictable` only. Safe. -/
  | unpredictable (reason : UnpredictableReason)
deriving DecidableEq, Repr

/-- Why the model has no meaning for what it met (R5 (d), R120). -/
inductive Refusal where
  /-- raised by an arm of `exec` that has no meaning yet; no arm of this model is one. Safe. -/
  | notModelled (mnemonic : String)
  /-- raised by `fetch16`: `P_Text` has no byte at `a` or at `a + 1` (R41). Safe. -/
  | noText (a : Addr)
  /-- raised by `fetch16` for an odd address, which is no legal call (R43). Safe (log 14). -/
  | oddFetch (a : Addr)
  /-- raised by `otherEffect`: `P_OtherInstr` is not defined for the halfword (R115). Safe. -/
  | notInSpec (hw : Half)
  /-- raised by `advancePC` and `fetchAfter`: execution would run off the top of the address space (R22). Safe. -/
  | pcWrap
  /-- raised by `beginStep`: `P_END` is reached inside an IT block (R144). Safe. -/
  | endInsideITBlock
deriving DecidableEq, Repr

/-- The parameters of a run that a step reads (R7, R112). No step writes them (R141 (f)). -/
structure Params where
  /-- `P_ITD`: the applicable ITD bit is 1 (R28) -/
  itd : Bool
  /-- `P_CU_IT` (R83) -/
  cuIT : CUChoice
  /-- which instantiation of `P_OtherInstr` (R115) -/
  otherInstr : OtherChoice
  /-- `P_END` (R144) -/
  endAddr : Addr
  /-- the addresses at which the `IT` instructions of the program stand, carried beside the text (R112, log 16): the set
  of slots is computed from them and the text -/
  its : List Addr
deriving DecidableEq, Repr

/-- The state of the PE (R20), with the text and the parameters of the run. -/
structure State where
  /-- the address of the instruction being executed (R22) -/
  pc : Addr
  /-- `PSTATE.IT[7:0]` (R23) -/
  it : ITBits
  /-- `PSTATE.N`, `Z`, `C`, `V` (R25) -/
  flags : Flags
  /-- `ShouldAdvanceIT` (R27) -/
  shouldAdvanceIT : Bool
  /-- the opaque rest of the PE (R20); only `P_OtherInstr` reads or writes it -/
  other : List Word
  /-- `P_Text` (R41) -/
  text : Memory
  /-- the parameters (R7) -/
  params : Params
deriving DecidableEq, Repr

/-- R7: `P_ITD`, `P_CU_IT` and `P_OtherInstr` at the values the spec gives by default. `P_END` and the list of `IT`s belong to a
launch, and nothing is launched yet: DESIGN CHOICE (logs 11, 16). -/
def Params.default : Params :=
  { itd := false, cuIT := .fault, otherInstr := .empty, endAddr := 0#32, its := [] }

/-- The machine right after reset. `PSTATE.IT` is the clean launch value of R33; `pc`, the flags, `ShouldAdvanceIT` and
`other` are DESIGN CHOICE (logs 7, 8, 10, 5); no text is loaded (log 13). -/
def State.reset : State :=
  { pc := 0x00008000#32
    it := 0#8
    flags := { n := false, z := false, c := false, v := false }
    shouldAdvanceIT := true
    other := []
    text := []
    params := Params.default }

def State.setPC (s : State) (a : Addr) : State := { s with pc := a }
def State.setIT (s : State) (b : ITBits) : State := { s with it := b }
def State.setFlags (s : State) (f : Flags) : State := { s with flags := f }
def State.setShouldAdvanceIT (s : State) (b : Bool) : State := { s with shouldAdvanceIT := b }
def State.setOther (s : State) (o : List Word) : State := { s with other := o }
def State.setText (s : State) (m : Memory) : State := { s with text := m }
def State.setParams (s : State) (p : Params) : State := { s with params := p }

end Sys2Proof.Machine
end

