-- ==== Sys2Proof/Machine/Operands.lean ====
section
/-! DEFINITION. The operand of `IT` and the ITSTATE machine: the two readings of `PSTATE.IT` (R23), the block of an `IT`
(R100, R101, R114), `InITBlock`, `LastInITBlock`, `CurrentCond` and `ITAdvance` (R103 to R105, R107). The bodies of the
last four are the Arm architecture's, supplied by the spec from general knowledge: UNVERIFIED (log 17). -/

namespace Sys2Proof.Machine

/-- `PSTATE.IT[7:5]`, `cond_base` (R23). -/
def condBase (b : ITBits) : BitVec 3 := b.extractLsb' 5 3

/-- `PSTATE.IT[7:4]`, the current condition (R23). -/
def itCond (b : ITBits) : Cond := b.extractLsb' 4 4

/-- `PSTATE.IT[3:0]`, the current mask (R23). -/
def itMask (b : ITBits) : Mask := b.extractLsb' 0 4

/-- R65, R87: the one combination of the fields, `firstcond : mask`. -/
def itOperand (firstcond : Cond) (mask : Mask) : ITBits := firstcond ++ mask

/-- `InITBlock()` (R103). -/
def inITBlock (b : ITBits) : Bool := itMask b != 0#4

/-- `LastInITBlock()` (R104). -/
def lastInITBlock (b : ITBits) : Bool := itMask b == 0b1000#4

/-- R24: the fifteen values with a zero mask and a nonzero condition. -/
def inconsistentIT (b : ITBits) : Bool := itMask b == 0#4 && itCond b != 0#4

/-- `CurrentCond()` (R105); `none` where it raises `Unpredictable(InconsistentITSTATE)`. -/
def currentCond (b : ITBits) : Option Cond :=
  if inITBlock b then some (itCond b)
  else if b == 0#8 then some 0b1110#4
  else none

/-- `ITAdvance()` (R107): clear all eight bits when `PSTATE.IT[2:0] == '000'`, else shift `PSTATE.IT[4:0]` left by one. -/
def itAdvance (b : ITBits) : ITBits :=
  if b.extractLsb' 0 3 == 0#3 then 0#8
  else condBase b ++ ((b.extractLsb' 0 5 : BitVec 5) <<< 1)

/-- The position of the lowest `1` of a mask (R68, R100); 4 when there is none. -/
def lowestOne (mask : Mask) : Nat :=
  if mask.getLsbD 0 then 0
  else if mask.getLsbD 1 then 1
  else if mask.getLsbD 2 then 2
  else if mask.getLsbD 3 then 3
  else 4

/-- The length of an IT block, `n = 4 - t` (R100). -/
def blockLength (mask : Mask) : Nat := 4 - lowestOne mask

/-- The condition of slot `k` of a block, `k` from 1 to `n` (R101): `firstcond` for slot 1, and for the others
`firstcond[3:1]` with the mask bit 3, 2 or 1. -/
def slotCond (firstcond : Cond) (mask : Mask) (k : Nat) : Cond :=
  if k ≤ 1 then firstcond
  else (firstcond.extractLsb' 1 3 : BitVec 3) ++ BitVec.ofBool (mask.getLsbD (5 - k))

/-- What slot `k` of a block sees in `PSTATE.IT` (the table of R114): `cond_base`, then `firstcond[0] : mask` shifted left by
`k - 1`. -/
def slotITSTATE (firstcond : Cond) (mask : Mask) (k : Nat) : ITBits :=
  (firstcond.extractLsb' 1 3 : BitVec 3) ++
    ((((firstcond.extractLsb' 0 1 : BitVec 1) ++ mask) : BitVec 5) <<< (k - 1))

end Sys2Proof.Machine
end

