-- ==== Sys2Proof/Machine/Flags.lean ====
section
/-! DEFINITION. What reads the condition flags, `ConditionHolds` (R106), what an instruction of an IT block may do to them
(R109), and the CPSR as a view of the flags and `PSTATE.IT` (R26). `IT` itself reads and writes no flag (R90, R91). -/

namespace Sys2Proof.Machine

/-- `ConditionHolds(cond)` (R106). The table is general knowledge of the spec's: UNVERIFIED (log 17). -/
def conditionHolds (cond : Cond) (f : Flags) : Bool :=
  let base : BitVec 3 := cond.extractLsb' 1 3
  let r : Bool :=
    if base == 0b000#3 then f.z
    else if base == 0b001#3 then f.c
    else if base == 0b010#3 then f.n
    else if base == 0b011#3 then f.v
    else if base == 0b100#3 then f.c && !f.z
    else if base == 0b101#3 then f.n == f.v
    else if base == 0b110#3 then f.n == f.v && !f.z
    else true
  if cond.getLsbD 0 && cond != 0b1111#4 then !r else r

/-- The flags after an instruction that is not `IT` and whose condition passed (R109, R115 (e)): a 16-bit instruction in an
IT block, other than `CMP`, `CMN` and `TST`, leaves them unchanged. -/
def flagsAfter (hw : Half) (b : ITBits) (comparison : Bool) (before after : Flags) : Flags :=
  if instrLength hw == 2 && inITBlock b && !comparison then before else after

/-- The CPSR as software sees the fields of the model (R26): `N Z C V` in 31:28, `PSTATE.IT[1:0]` in 26:25,
`PSTATE.IT[7:2]` in 15:10, `T` = 1 in bit 5 (R29). The fields the model does not hold come from `rest`. UNVERIFIED (log 22). -/
def cpsrView (rest : Word) (s : State) : Word :=
  BitVec.ofBool s.flags.n ++ BitVec.ofBool s.flags.z ++ BitVec.ofBool s.flags.c ++ BitVec.ofBool s.flags.v ++
    (rest.extractLsb' 27 1 : BitVec 1) ++ (s.it.extractLsb' 0 2 : BitVec 2) ++ (rest.extractLsb' 16 9 : BitVec 9) ++
    (s.it.extractLsb' 2 6 : BitVec 6) ++ (rest.extractLsb' 6 4 : BitVec 4) ++ 1#1 ++ (rest.extractLsb' 0 5 : BitVec 5)

/-- `PSTATE.IT` in a CPSR value (R26). -/
def cpsrIT (v : Word) : ITBits := (v.extractLsb' 10 6 : BitVec 6) ++ (v.extractLsb' 25 2 : BitVec 2)

/-- The flags in a CPSR value (R26). -/
def cpsrFlags (v : Word) : Flags :=
  { n := v.getLsbD 31, z := v.getLsbD 30, c := v.getLsbD 29, v := v.getLsbD 28 }

/-- The restoration of the CPSR (R26, R113), as far as the model holds its fields. No instruction of the model does it
(R125): it is how a launch inside an IT block comes about (R33, log 26). -/
def State.restoreCPSR (v : Word) (s : State) : State :=
  (s.setFlags (cpsrFlags v)).setIT (cpsrIT v)

end Sys2Proof.Machine
end

