-- ==== Sys2Proof/Machine/Ops.lean ====
section
/-! DEFINITION. The shared operations: reading and writing the program text (R41), instruction fetch (R41 to R43), raising
a fault (R120, R121), the advance of the pc (R22), `CheckITEnabled` (R86), the instructions that are not `IT` (R108, R109,
R112, R115), the skeleton of a step around an instruction (R102), and the launch of a run (R33, R141). -/

namespace Sys2Proof.Machine

/-! ### The program text -/

/-- The byte listed under a key. -/
def lookupCell : Memory → Nat → Option Byte
  | [], _ => none
  | (k, v) :: m, a => if k = a then some v else lookupCell m a

/-- The list with a byte put under a key, the keys still rising. -/
def insertCell : Memory → Nat → Byte → Memory
  | [], a, b => [(a, b)]
  | (k, v) :: m, a, b =>
    if a < k then (a, b) :: (k, v) :: m
    else if a = k then (a, b) :: m
    else (k, v) :: insertCell m a b

/-- `P_Text(a)` (R41): `none` where the partial function is not defined. -/
def Memory.read (m : Memory) (a : Addr) : Option Byte := lookupCell m a.toNat

/-- Puts a byte into the text. Only a launch does (R49, R145). -/
def Memory.write (m : Memory) (a : Addr) (b : Byte) : Memory := insertCell m a.toNat b

/-- The keys rise from `lo` on and are 32-bit addresses. -/
def wfFrom : Nat → Memory → Bool
  | _, [] => true
  | lo, (k, _) :: m => lo ≤ k && k < 2 ^ 32 && wfFrom (k + 1) m

/-- The canonical form of the text: strictly rising 32-bit addresses. An unlisted address holds no byte, so no entry can
equal what an unlisted address reads as. -/
def Memory.wf (m : Memory) : Bool := wfFrom 0 m

/-- Puts bytes at consecutive addresses, the first at `a`. -/
def Memory.writeBytes : Memory → Addr → List Byte → Memory
  | m, _, [] => m
  | m, a, b :: bs => Memory.writeBytes (m.write a b) (a + 1#32) bs

/-! ### Instruction fetch -/

/-- `Fetch16(a)` (R41): the halfword `P_Text(a+1) : P_Text(a)` (R42). An odd `a` is no legal call (R43, log 14). -/
def fetch16 (m : Memory) (a : Addr) : Except Refusal Half :=
  if a.getLsbD 0 then .error (.oddFetch a)
  else
    match m.read a, m.read (a + 1#32) with
    | some lo, some hi => .ok (halfOfBytes lo hi)
    | _, _ => .error (.noText a)

/-- The fetch of the halfword `k` bytes after the pc. Where `pc + k` does not fit in 32 bits there is no such address:
`PcWrap` (R22). DEDUCED (log 15). -/
def fetchAfter (k : Nat) (s : State) : Except Refusal Half :=
  if s.pc.toNat + k < 2 ^ 32 then fetch16 s.text (s.pc + BitVec.ofNat 32 k) else .error .pcWrap

/-! ### Ending a step -/

/-- UNDEFINED (R121): the hardware takes an Undefined Instruction exception, the model's run ends in a fault with the pc,
`PSTATE.IT` and the flags as they were before the instruction. No entry sequence is modelled (R124, log 20). -/
def raiseUndefined (reason : UndefinedReason) : Host.Outcome State Fault Refusal :=
  .fault (.undefined reason)

/-- UNPREDICTABLE (R5, R120). -/
def raiseUnpredictable (reason : UnpredictableReason) : Host.Outcome State Fault Refusal :=
  .fault (.unpredictable reason)

/-- The sequential advance of the pc by an instruction's length (R22, R89); `PcWrap` where the sum does not fit. -/
def advancePC (len : Nat) (s : State) : Host.Outcome State Fault Refusal :=
  if s.pc.toNat + len < 2 ^ 32 then .next (s.setPC (s.pc + BitVec.ofNat 32 len)) else .refused .pcWrap

/-! ### `CheckITEnabled` -/

/-- What a check that may end the step found. -/
inductive Check where
  | passes
  | stops (o : Host.Outcome State Fault Refusal)

/-- The six bit patterns of R86 as (mask, value) pairs, in the rule's order. -/
def itdPatterns : List (Half × Half) :=
  [(0xC000#16, 0xC000#16), (0xF000#16, 0xB000#16), (0xF800#16, 0xA000#16),
   (0xF800#16, 0x4800#16), (0xFC78#16, 0x4478#16), (0xFC87#16, 0x4487#16)]

/-- Whether the halfword after a one-instruction `IT` makes that `IT` undefined under ITD controls (R86). -/
def itdForbids (next : Half) : Bool :=
  itdPatterns.any fun p => next &&& p.1 == p.2

/-- `CheckITEnabled(mask)` (R86) for the `IT` whose halfword is `hw`. The body under `P_ITD` is general knowledge of the
spec's, and the fault is taken on the `IT` itself: DESIGN CHOICE (log 3). -/
def checkITEnabled (mask : Mask) (hw : Half) (s : State) : Check :=
  if !s.params.itd then .passes
  else if mask != 0b1000#4 then .stops (raiseUndefined (.itDisabled s.pc hw))
  else
    match fetchAfter 2 s with
    | .error r => .stops (.refused r)
    | .ok next => if itdForbids next then .stops (raiseUndefined (.itDisabled s.pc hw)) else .passes

/-! ### The instructions that are not `IT` -/

/-- What `P_OtherInstr` is given of the state (R115). -/
def otherView (hw2 : Option Half) (s : State) : OtherView :=
  { pc := s.pc, it := s.it, flags := s.flags, other := s.other, hw2 := hw2 }

/-- The effect of `NOP` (R115): nothing but the advance of the pc. -/
def nopEffect (s : State) : OtherEffect :=
  { flags := s.flags, other := s.other, target := none, comparison := false }

/-- The second halfword of a 32-bit instruction, fetched under every instantiation (R41, R62, log 6). -/
def secondHalf (hw : Half) (s : State) : Except Refusal (Option Half) :=
  if isWide hw then
    match fetchAfter 2 s with
    | .ok hw2 => .ok (some hw2)
    | .error r => .error r
  else .ok none

/-- `P_OtherInstr(hw1, S, passed)` under the instantiation the run uses (R7, R115); `none` where it is undefined. No
instantiation answers for a halfword that is `IT` (R115 (d)). -/
def pOtherInstr (hw : Half) (passed : Bool) (hw2 : Option Half) (s : State) : Option OtherEffect :=
  if isIT hw then none
  else
    match s.params.otherInstr with
    | .empty => none
    | .nop => if hw == 0xBF00#16 then some (nopEffect s) else none
    | .user => Config.otherInstr hw (otherView hw2 s) passed

/-- The second fetch and then `P_OtherInstr`, with the refusals of both (R41, R115). -/
def otherEffect (hw : Half) (passed : Bool) (s : State) : Except Refusal OtherEffect :=
  match secondHalf hw s with
  | .error r => .error r
  | .ok hw2 =>
    match pOtherInstr hw passed hw2 s with
    | some e => .ok e
    | none => .error (.notInSpec hw)

/-! ### The slots of the IT blocks -/

/-- The addresses of `n` instructions in line from `a` on (R100): each 2 or 4 bytes long by its first halfword (R62). The
list ends where the next address is not known: no halfword can be fetched, or the address does not fit in 32 bits. -/
def lineOf (m : Memory) : Nat → Addr → List Addr
  | 0, _ => []
  | n + 1, a =>
    a :: match fetch16 m a with
      | .ok hw => if a.toNat + instrLength hw < 2 ^ 32 then lineOf m n (a + BitVec.ofNat 32 (instrLength hw)) else []
      | .error _ => []

/-- Whether the `IT` with halfword `hw` at `a`, executed outside a block under the parameters `p`, sets ITSTATE and so has a
block at all: its condition is good or the bad condition is executed (R83), `CheckITEnabled` passes (R86), and the address
after it exists (R22). R112 and R33 do not say whether an `IT` that does not set ITSTATE has a block; in the model it has
none (logs 16, 26). -/
def setsBlock (p : Params) (m : Memory) (a : Addr) (hw : Half) : Bool :=
  isIT hw && (!badCondition (firstcondOf hw) (maskField hw) || p.cuIT == .execute) && decide (a.toNat + 2 < 2 ^ 32) &&
    match checkITEnabled (maskField hw) hw { State.reset with pc := a, text := m, params := p } with
    | .passes => true
    | .stops _ => false

/-- The slots of the block of the `IT` at `a` (R100): the `n` instructions at the addresses following `a + 2`. Empty where
no `IT` stands at `a`, and where it sets no ITSTATE under the parameters `p` (R83 `NOP`: what follows is not in an IT
block; for the other causes the model's choice, log 16). -/
def blockSlots (p : Params) (m : Memory) (a : Addr) : List Addr :=
  match fetch16 m a with
  | .ok hw => if setsBlock p m a hw then lineOf m (blockLength (maskField hw)) (a + 2#32) else []
  | .error _ => []

/-- The parameters under which slots are looked for: `FAULT` stands for a hardware that shows any of the three permitted
behaviours, of which one makes a block, so a bad `IT` counts as executed. DESIGN CHOICE (log 16): it errs toward faulting,
as `FAULT` does (D8). -/
def Params.forSlots (p : Params) : Params :=
  { p with cuIT := if p.cuIT = .fault then .execute else p.cuIT }

/-- The set of addresses that are slots of some `IT`'s block (R112), from the `IT`s carried beside the text. -/
def State.itSlots (s : State) : List Addr :=
  s.params.its.flatMap (blockSlots s.params.forSlots s.text)

/-! ### The effect of an instruction that is not `IT` -/

/-- The address a halfword index stands for: a branch target is halfword aligned (R115 (c)). -/
def targetAddr (t : BitVec 31) : Addr := t ++ 0#1

/-- The flags and `other` of an effect, put into the state (R109, R115 (e)). -/
def applyData (hw : Half) (e : OtherEffect) (s : State) : State :=
  (s.setOther e.other).setFlags (flagsAfter hw s.it e.comparison s.flags e.flags)

/-- What an instruction that is not `IT` does. With a failed condition it only advances the pc (R108, R115 (b)). With a
passed one it has its effect; a taken branch that lands on a slot of an IT block faults, wherever it stands (R112, R120,
log 16). -/
def applyOther (hw : Half) (passed : Bool) (e : OtherEffect) (s : State) : Host.Outcome State Fault Refusal :=
  if !passed then advancePC (instrLength hw) s
  else
    match e.target with
    | none => advancePC (instrLength hw) (applyData hw e s)
    | some t =>
      if s.itSlots.contains (targetAddr t) then raiseUnpredictable (.branchIntoITBlock s.pc (targetAddr t))
      else .next ((applyData hw e s).setPC (targetAddr t))

/-- The branch of R102 for every halfword that is not `IT`: the condition of the slot, whether it holds, and
`P_OtherInstr`. -/
def otherInstr (hw : Half) (s : State) : Host.Outcome State Fault Refusal :=
  match currentCond s.it with
  | none => raiseUnpredictable (.inconsistentITSTATE s.pc s.it)
  | some cond =>
    match otherEffect hw (conditionHolds cond s.flags) s with
    | .error r => .refused r
    | .ok e => applyOther hw (conditionHolds cond s.flags) e s

/-! ### The skeleton of a step (R102) -/

/-- What the tests before an instruction found: the step is over, or there is a halfword to execute. -/
inductive StepStart where
  | done (o : Host.Outcome State Fault Refusal)
  | fetched (hw : Half) (s : State)

/-- R144: the run is over and `s` is its final state. -/
def isFinal (s : State) : Bool := s.pc == s.params.endAddr && s.it == 0#8

/-- The start of a step (R102), its three tests in the fixed order: consistency (R24), end of the run (R144), fetch (R41).
A final state stays as it is (log 12). `ShouldAdvanceIT` becomes TRUE (R27). -/
def beginStep (s : State) : StepStart :=
  if inconsistentIT s.it then .done (raiseUnpredictable (.inconsistentITSTATE s.pc s.it))
  else if s.pc == s.params.endAddr then
    if s.it == 0#8 then .done (.next s) else .done (.refused .endInsideITBlock)
  else
    match fetch16 s.text s.pc with
    | .error r => .done (.refused r)
    | .ok hw => .fetched hw (s.setShouldAdvanceIT true)

/-- `if ShouldAdvanceIT then ITAdvance()` on a state (R102, R107). -/
def advanceIfDue (s : State) : State :=
  if s.shouldAdvanceIT then s.setIT (itAdvance s.it) else s

/-- The end of a step (R102): a fault or a refusal ends it at once, with no `ITAdvance()`. -/
def endStep : Host.Outcome State Fault Refusal → Host.Outcome State Fault Refusal
  | .next s => .next (advanceIfDue s)
  | .fault f => .fault f
  | .refused r => .refused r

/-! ### The launch of a run -/

/-- The launch of a run (R33, R141, R145): the user gives the text, the parameters (with the addresses of the `IT`
instructions, R112), the entry address, the flags, `PSTATE.IT` and `other`. -/
def launch (text : Memory) (p : Params) (entry : Addr) (f : Flags) (it : ITBits) (other : List Word) : State :=
  { pc := entry, it := it, flags := f, shouldAdvanceIT := true, other := other, text := text, params := p }

/-- Bytes placed where the next step fetches, as a launch that loads them would: they stand at the pc, and a `P_END` that
stood at the pc moves behind them (log 13). -/
def State.placeAtPC (s : State) (bytes : List Byte) : State :=
  (s.setText (s.text.writeBytes s.pc bytes)).setParams
    { s.params with
      endAddr := if s.params.endAddr = s.pc then s.pc + BitVec.ofNat 32 bytes.length else s.params.endAddr }

end Sys2Proof.Machine
end

