-- ==== Sys2Proof/Machine/IfThen.lean ====
section
/-! DEFINITION. The meaning of `IT` (R80), its Decode and Execute lines in the order of R92. -/

namespace Sys2Proof.Machine

/-- The Execute lines of `IT` (R86 to R89): `CheckITEnabled(mask)`, `PSTATE.IT <- firstcond : mask`,
`ShouldAdvanceIT <- FALSE`, `pc <- pc + 2`. -/
def executeIT (firstcond : Cond) (mask : Mask) (s : State) : Host.Outcome State Fault Refusal :=
  match checkITEnabled mask (itHalf firstcond mask) s with
  | .stops o => o
  | .passes => advancePC 2 ((s.setIT (itOperand firstcond mask)).setShouldAdvanceIT false)

/-- `IT` (R80). Highest priority first (R92): a zero mask is not `IT` (R81, log 18); inside an IT block (R84); a bad condition by
`P_CU_IT` (R82, R83); then the Execute lines. It reads no flag and is not itself conditional (R91). -/
def execIT (firstcond : Cond) (mask : Mask) (s : State) : Host.Outcome State Fault Refusal :=
  if mask == 0#4 then otherInstr (itHalf firstcond mask) s
  else if inITBlock s.it then raiseUnpredictable (.itInsideITBlock s.pc (itHalf firstcond mask))
  else if badCondition firstcond mask then
    match s.params.cuIT with
    | .fault => raiseUnpredictable (.itBadCondition s.pc (itHalf firstcond mask))
    | .undef => raiseUndefined (.itBadCondition s.pc (itHalf firstcond mask))
    | .nop => advancePC 2 s
    | .execute => executeIT firstcond mask s
  else executeIT firstcond mask s

end Sys2Proof.Machine
end

