-- ==== Sys2Proof/Machine/Misc16.lean ====
section
/-! DEFINITION. The meaning of the table's excluded row, the Miscellaneous 16-bit instructions `0xBF00, 0xBF10, ..., 0xBFF0`
(R63, R81). -/

namespace Sys2Proof.Machine

/-- R63: not `IT`; the halfword goes to `P_OtherInstr` with the condition of its slot (R102, R115). -/
def execMisc16 (x : BitVec 4) (s : State) : Host.Outcome State Fault Refusal :=
  otherInstr (miscHalf x) s

end Sys2Proof.Machine
end

