-- ==== Sys2Proof/Machine/Dispatch.lean ====
section
/-! DEFINITION. One arm per constructor of Instr. -/

namespace Sys2Proof.Machine

def exec (i : Instr) (s : State) : Host.Outcome State Fault Refusal :=
  match i with
  | .it firstcond mask => Sys2Proof.Machine.execIT firstcond mask s
  | .misc16 x => Sys2Proof.Machine.execMisc16 x s

end Sys2Proof.Machine
end

