-- ==== Sys2Proof/Machine/Step.lean ====
section
/-! DEFINITION. One step of the PE (R102). -/

namespace Sys2Proof.Machine

/-- The instruction of a fetched halfword: the decoded row of the table, or `P_OtherInstr` for a halfword of no row
(R102). -/
def runHalf (hw : Half) (s : State) : Host.Outcome State Fault Refusal :=
  match decodeHalf hw with
  | .ok i => exec i s
  | .error _ => otherInstr hw s

/-- One step (R102): the tests and the fetch, the instruction, the advance of ITSTATE. -/
def step (s : State) : Host.Outcome State Fault Refusal :=
  match beginStep s with
  | .done o => o
  | .fetched hw s1 => endStep (runHalf hw s1)

/-- The state with a table word stored where the next step fetches (log 13). -/
def State.withFetchWord (s : State) (nbits w : Nat) : State :=
  s.placeAtPC (tableBytes nbits w)

end Sys2Proof.Machine
end

