-- ==== Sys2Proof/Machine/Assembly.lean ====
section
/-! DEFINITION. The assembler's side of `IT` (R66 to R73): mask from letters and back, the source line to bytes and back,
and the check of a block's conditions. The machine does not use it (D1); condition mnemonics and qualifiers are general
knowledge of the spec's: UNVERIFIED (log 23). -/

namespace Sys2Proof.Machine

/-- The bit of a letter (R68): `T` is `firstcond[0]`, `E` is `NOT firstcond[0]`. -/
def letterBit (f : Bool) : Letter → Bool
  | .t => f
  | .e => !f

/-- The letter of a bit (R69). -/
def bitLetter (f : Bool) (b : Bool) : Letter := if b = f then .t else .e

/-- R68: `mask` from the letters; more than three letters are no `IT`. -/
def maskOf (f : Bool) : List Letter → Option Mask
  | [] => some 0b1000#4
  | [x] => some (BitVec.ofBool (letterBit f x) ++ 0b100#3)
  | [x, y] => some (BitVec.ofBool (letterBit f x) ++ BitVec.ofBool (letterBit f y) ++ 0b10#2)
  | [x, y, z] =>
    some (BitVec.ofBool (letterBit f x) ++ BitVec.ofBool (letterBit f y) ++ BitVec.ofBool (letterBit f z) ++ 0b1#1)
  | _ => none

/-- R69: the letters of a mask, the `k`-th instruction's (`k` = 2 to `n`) from `mask[5-k]`. -/
def lettersOf (f : Bool) (mask : Mask) : List Letter :=
  (List.range (blockLength mask - 1)).map fun j => bitLetter f (mask.getLsbD (3 - j))

/-- `firstcond[0]`. -/
def condLow (c : Cond) : Bool := c.getLsbD 0

/-- The halfword a well-written line stands for (R68); `none` for a line that is not assemblable: `'1111'`, `AL` with an `E`
(R64, R69), `.W` (R70), more than three letters. -/
def lineHalf (a : AsmLine) : Option Half :=
  if a.qualifier = .wide then none
  else
    match maskOf (condLow a.cond) a.letters with
    | none => none
    | some mask => if badCondition a.cond mask then none else some (itHalf a.cond mask)

/-- The bytes an assembler emits for a line: in T32 the halfword, in A32 nothing, the line being checked all the same
(R2, R72). -/
def assemble (isa : ISA) (a : AsmLine) : Option (List Byte) :=
  match lineHalf a with
  | none => none
  | some hw =>
    match isa with
    | .t32 => some (bytesOfHalf hw)
    | .a32 => some []

/-- The line of a valid `IT` (R69). -/
def disassemble (hw : Half) : Option AsmLine :=
  if classify hw = .valid then
    some { letters := lettersOf (condLow (firstcondOf hw)) (maskField hw), qualifier := .none, cond := firstcondOf hw }
  else none

/-- R71: the conditions written on the instructions of the block are those of its slots (R101). -/
def blockSyntaxMatches (firstcond : Cond) (mask : Mask) (written : List Cond) : Bool :=
  written == (List.range (blockLength mask)).map fun j => slotCond firstcond mask (j + 1)

/-- The condition mnemonics of R67; `'1111'` has none. -/
def condName (c : Cond) : Option String :=
  ["EQ", "NE", "CS", "CC", "MI", "PL", "VS", "VC", "HI", "LS", "GE", "LT", "GT", "LE", "AL"][c.toNat]?

/-- The text of a line (R66): the mnemonic and its letters without spaces, the qualifier, a space, the condition. -/
def lineText (a : AsmLine) : Option String :=
  match condName a.cond with
  | none => none
  | some c =>
    let letters := a.letters.foldl (fun acc l => acc ++ match l with | .t => "T" | .e => "E") "IT"
    let q := match a.qualifier with
      | .none => ""
      | .narrow => ".N"
      | .wide => ".W"
    some (letters ++ q ++ " " ++ c)

end Sys2Proof.Machine
end

