-- ==== Sys2Proof/Safety.lean ====
section
/-! DEFINITION. What counts as a good state and a good run, in the terms the statements use: the parts of an outcome, the
invariant of the reachable states (R22, R24), a legal launch (R141). -/

namespace Sys2Proof.Machine

/-- The next state of an outcome, if it has one (R5 (a)). -/
def nextOf : Host.Outcome State Fault Refusal → Option State
  | .next s => some s
  | .fault _ => none
  | .refused _ => none

/-- The fault of an outcome, if it is one (R5 (b), (c)). -/
def faultOf : Host.Outcome State Fault Refusal → Option Fault
  | .next _ => none
  | .fault f => some f
  | .refused _ => none

/-- The refusal of an outcome, if it is one (R5 (d)). -/
def refusalOf : Host.Outcome State Fault Refusal → Option Refusal
  | .next _ => none
  | .fault _ => none
  | .refused r => some r

/-- An outcome with a function applied to its next state. -/
def mapNext (f : State → State) : Host.Outcome State Fault Refusal → Host.Outcome State Fault Refusal
  | .next s => .next (f s)
  | .fault x => .fault x
  | .refused x => .refused x

/-- A run that has met no fault (R121: a faulted state is never final). -/
def Safe (o : Host.Outcome State Fault Refusal) : Prop := faultOf o = none

/-- The three tests at the start of a step let the halfword `hw` through to execution (R102). -/
def Fetches (s : State) (hw : Half) : Prop :=
  inconsistentIT s.it = false ∧ s.pc ≠ s.params.endAddr ∧ fetch16 s.text s.pc = .ok hw

/-- The `IT` of a halfword sets ITSTATE when it completes: its condition is not bad, or the bad condition is executed (R82,
R83). -/
def SetsITSTATE (hw : Half) (s : State) : Prop :=
  isIT hw = true ∧ (badCondition (firstcondOf hw) (maskField hw) = false ∨ s.params.cuIT = .execute)

/-- The invariant of every reachable state: the pc is halfword aligned (R22), `PSTATE.IT` is not one of the fifteen values
of R24, and the text has its canonical form. -/
structure Inv (s : State) : Prop where
  aligned : s.pc.getLsbD 0 = false
  consistent : inconsistentIT s.it = false
  textForm : s.text.wf = true

/-- R113, R141 (d): the pc is slot `k` of the block of an `IT` of the program, and `PSTATE.IT` is the value R114 gives for
that slot. That "consistent" means exactly this is the spec's reading (U10). R33 asks for the ITSTATE that the block's own
`IT` "would have produced"; whether that `IT` must set ITSTATE under the run's own parameters the spec leaves open. The model
asks it (`blockSlots` is empty for an `IT` that does not): a bad condition under `FAULT`, `UNDEF` or `NOP`, or an `IT` that
ITD controls disable, has no slot to start in; nor has an `IT` that itself stands on a slot (R84). DEDUCED (log 26). -/
def InsideBlock (s : State) : Prop :=
  ∃ (a : Addr) (firstcond : Cond) (mask : Mask) (k : Nat),
    a ∈ s.params.its ∧ a ∉ s.itSlots ∧ fetch16 s.text a = .ok (itHalf firstcond mask) ∧ mask ≠ 0#4 ∧ 1 ≤ k ∧ k ≤ blockLength mask ∧
      (blockSlots s.params s.text a)[k - 1]? = some s.pc ∧ s.it = slotITSTATE firstcond mask k

/-- R112: the addresses carried beside the text are those of `IT`s of the text, and no `IT` is missing on the line of
instructions from the pc on, as far as the end of the run. Which `IT`s stand where only branches lead is the user's to say
(log 16). -/
structure ITsListed (s : State) : Prop where
  declared : ∀ a ∈ s.params.its, ∃ hw, fetch16 s.text a = .ok hw ∧ isIT hw = true
  complete : ∀ (n : Nat) (a : Addr) (hw : Half), s.params.endAddr ∉ lineOf s.text n s.pc → a ∈ lineOf s.text n s.pc →
    fetch16 s.text a = .ok hw → isIT hw = true → a ∈ s.params.its

/-- A legal launch state (R141 (b), (d), R112; (c) is left to the run, which refuses where there is no text, and (a), (e),
(f) hold of every state of the model). A launch with `PSTATE.IT == '00000000'` does not start on a slot of a block: that
value is not the slot's, so it is no legal launch (R33, R113, U4). -/
structure LegalLaunch (s : State) : Prop where
  aligned : s.pc.getLsbD 0 = false
  itstate : (s.it = 0#8 ∧ s.pc ∉ s.itSlots) ∨ InsideBlock s
  textForm : s.text.wf = true
  listed : ITsListed s

/-- What no step may change (R141 (f), R145, R49): the parameters and the text. -/
def SameRun (s t : State) : Prop := t.params = s.params ∧ t.text = s.text

/-- The six bit patterns of R86, as fields of the halfword after a one-instruction `IT`. -/
def ITDListed (next : Half) : Prop :=
  next.extractLsb' 14 2 = 0b11#2 ∨ next.extractLsb' 12 4 = 0b1011#4 ∨ next.extractLsb' 11 5 = 0b10100#5 ∨
    next.extractLsb' 11 5 = 0b01001#5 ∨
    (next.extractLsb' 10 6 = 0b010001#6 ∧ next.extractLsb' 3 4 = 0b1111#4) ∨
    (next.extractLsb' 10 6 = 0b010001#6 ∧ next.extractLsb' 7 1 = 1#1 ∧ next.extractLsb' 0 3 = 0b111#3)

/-- An `IT` that stands at the pc outside an IT block. -/
def ITOutsideBlock (s : State) (hw : Half) : Prop :=
  fetch16 s.text s.pc = .ok hw ∧ isIT hw = true ∧ inITBlock s.it = false

/-- The cause R120 gives each fault, as a property of the state the step began in. -/
def FaultCause (s : State) : Fault → Prop
  | .undefined (.itDisabled pc hw) =>
    pc = s.pc ∧ ITOutsideBlock s hw ∧ SetsITSTATE hw s ∧ s.params.itd = true ∧
      (maskField hw ≠ 0b1000#4 ∨ ∃ next, fetch16 s.text (s.pc + 2#32) = .ok next ∧ ITDListed next)
  | .undefined (.itBadCondition pc hw) =>
    pc = s.pc ∧ ITOutsideBlock s hw ∧ classify hw = .constrainedUnpredictable ∧ s.params.cuIT = .undef
  | .unpredictable (.itBadCondition pc hw) =>
    pc = s.pc ∧ ITOutsideBlock s hw ∧ classify hw = .constrainedUnpredictable ∧ s.params.cuIT = .fault
  | .unpredictable (.itInsideITBlock pc hw) =>
    pc = s.pc ∧ fetch16 s.text s.pc = .ok hw ∧ isIT hw = true ∧ inITBlock s.it = true
  | .unpredictable (.inconsistentITSTATE pc it) => pc = s.pc ∧ it = s.it ∧ inconsistentIT s.it = true
  | .unpredictable (.branchIntoITBlock pc target) =>
    pc = s.pc ∧ target ∈ s.itSlots ∧
      ∃ (hw : Half) (hw2 : Option Half) (cond : Cond) (e : OtherEffect) (g : BitVec 31),
        fetch16 s.text s.pc = .ok hw ∧ isIT hw = false ∧ currentCond s.it = some cond ∧
          conditionHolds cond s.flags = true ∧ secondHalf hw s = .ok hw2 ∧ pOtherInstr hw true hw2 s = some e ∧
          e.target = some g ∧ target = g ++ 0#1

/-- The cause of each refusal (R120), as a property of the state the step began in. A step never answers with the refusal
kept for an arm without a meaning. -/
def RefusalCause (s : State) : Refusal → Prop
  | .noText a =>
    a.getLsbD 0 = false ∧ (s.text.read a = none ∨ s.text.read (a + 1#32) = none) ∧
      (a = s.pc ∨
        (a = s.pc + 2#32 ∧ ∃ hw, fetch16 s.text s.pc = .ok hw ∧
          (isWide hw = true ∨ (isIT hw = true ∧ s.params.itd = true ∧ maskField hw = 0b1000#4))))
  | .oddFetch a => a = s.pc ∧ a.getLsbD 0 = true
  | .notInSpec hw =>
    fetch16 s.text s.pc = .ok hw ∧ isIT hw = false ∧
      ∃ (hw2 : Option Half) (cond : Cond), secondHalf hw s = .ok hw2 ∧ currentCond s.it = some cond ∧
        pOtherInstr hw (conditionHolds cond s.flags) hw2 s = none
  | .pcWrap => ∃ hw, fetch16 s.text s.pc = .ok hw ∧ 2 ^ 32 ≤ s.pc.toNat + instrLength hw
  | .endInsideITBlock => s.pc = s.params.endAddr ∧ inITBlock s.it = true
  | _ => False

end Sys2Proof.Machine
end

