-- ==== Sys2Proof/Certificates/Slice0/Obligations.lean ====
section
/-! DEFINITION. The statements for the provers. Each docstring names the rule it formalises or the sections it rests on. -/

open Sys2Proof Sys2Proof.Machine

/-! ### The two instructions: results, stops, frames -/

/-- R87. Outside an IT block, with a good condition and no ITD control, `IT` completes: `PSTATE.IT` is the low byte of the
halfword, nothing else but `ShouldAdvanceIT` and the pc changes, and the instruction fetched next is slot 1. -/
def Obligations.ITCompletesWithITSTATE : Prop :=
  ∀ (firstcond : Cond) (mask : Mask) (s : State),
    mask ≠ 0#4 → inITBlock s.it = false → badCondition firstcond mask = false → s.params.itd = false →
    s.pc.toNat + 2 < 2 ^ 32 →
      exec (.it firstcond mask) s =
          .next { s with it := (itHalf firstcond mask).extractLsb' 0 8, shouldAdvanceIT := false, pc := s.pc + 2#32 } ∧
        ((itHalf firstcond mask).extractLsb' 0 8 : ITBits) = firstcond ++ mask ∧
        inITBlock (firstcond ++ mask) = true ∧ currentCond (firstcond ++ mask) = some firstcond

/-- R84, R92. `IT` inside an IT block is UNPREDICTABLE whatever the parameters, the condition and the mask, so with a
consistent `PSTATE.IT` it executes only when `PSTATE.IT == '00000000'`. That this test comes before that of the condition is
the order of R92, the spec's decision D9 (log 19, a design choice). -/
def Obligations.ITInsideBlockNeverExecutes : Prop :=
  ∀ (firstcond : Cond) (mask : Mask) (s : State), mask ≠ 0#4 →
    (inITBlock s.it = true →
      exec (.it firstcond mask) s = .fault (.unpredictable (.itInsideITBlock s.pc (itHalf firstcond mask)))) ∧
    ∀ t, inconsistentIT s.it = false → exec (.it firstcond mask) s = .next t → s.it = 0#8

/-- R82, R83, R92. A bad condition under each of the four values of `P_CU_IT`, with the end of the step: two faults whatever
the ITD control, a no-operation after which `PSTATE.IT` is still zero, or the Execute lines. Under `P_ITD` the Execute lines
begin with the body of R86, which the model adopts by its own choice (log 3): a longer block, or `'1111'` with one
instruction whose halfword is listed, is disabled; without the halfword the step is refused. -/
def Obligations.BadConditionUnderEachChoice : Prop :=
  ∀ (firstcond : Cond) (mask : Mask) (s : State),
    mask ≠ 0#4 → s.it = 0#8 → s.pc.toNat + 2 < 2 ^ 32 →
    (firstcond = 0b1111#4 ∨
      (firstcond = 0b1110#4 ∧ mask ≠ 0b1000#4 ∧ mask ≠ 0b0100#4 ∧ mask ≠ 0b0010#4 ∧ mask ≠ 0b0001#4)) →
      (s.params.cuIT = .fault →
        endStep (exec (.it firstcond mask) (s.setShouldAdvanceIT true)) =
          .fault (.unpredictable (.itBadCondition s.pc (itHalf firstcond mask)))) ∧
      (s.params.cuIT = .undef →
        endStep (exec (.it firstcond mask) (s.setShouldAdvanceIT true)) =
          .fault (.undefined (.itBadCondition s.pc (itHalf firstcond mask)))) ∧
      (s.params.cuIT = .nop →
        endStep (exec (.it firstcond mask) (s.setShouldAdvanceIT true)) =
          .next { s with pc := s.pc + 2#32, shouldAdvanceIT := true }) ∧
      (s.params.cuIT = .execute → s.params.itd = false →
        endStep (exec (.it firstcond mask) (s.setShouldAdvanceIT true)) =
          .next { s with pc := s.pc + 2#32, it := firstcond ++ mask, shouldAdvanceIT := false }) ∧
      (s.params.cuIT = .execute → s.params.itd = true → mask ≠ 0b1000#4 →
        endStep (exec (.it firstcond mask) (s.setShouldAdvanceIT true)) =
          .fault (.undefined (.itDisabled s.pc (itHalf firstcond mask)))) ∧
      (s.params.cuIT = .execute → s.params.itd = true → mask = 0b1000#4 →
        (∀ next : Half, fetch16 s.text (s.pc + 2#32) = .ok next →
          (ITDListed next →
            endStep (exec (.it firstcond mask) (s.setShouldAdvanceIT true)) =
              .fault (.undefined (.itDisabled s.pc (itHalf firstcond mask)))) ∧
          (¬ ITDListed next →
            endStep (exec (.it firstcond mask) (s.setShouldAdvanceIT true)) =
              .next { s with pc := s.pc + 2#32, it := firstcond ++ mask, shouldAdvanceIT := false })) ∧
        (s.pc.getLsbD 0 = false →
          s.text.read (s.pc + 2#32) = none ∨ s.text.read (s.pc + 2#32 + 1#32) = none →
            endStep (exec (.it firstcond mask) (s.setShouldAdvanceIT true)) = .refused (.noText (s.pc + 2#32))))

/-- R86. `CheckITEnabled` with `P_ITD == TRUE`, the six bit patterns written out as fields of the next halfword (`ITDListed`),
and the refusal where that halfword is not in the text (vector E28). That the body is adopted and the fault taken on the
`IT` is the model's choice among the two the rule gives (log 3). -/
def Obligations.ITDControlsDisableListedUses : Prop :=
  ∀ (firstcond : Cond) (mask : Mask) (s : State),
    mask ≠ 0#4 → inITBlock s.it = false → badCondition firstcond mask = false → s.params.itd = true →
    s.pc.toNat + 2 < 2 ^ 32 →
      (mask ≠ 0b1000#4 →
        exec (.it firstcond mask) s = .fault (.undefined (.itDisabled s.pc (itHalf firstcond mask)))) ∧
      (mask = 0b1000#4 →
        (∀ next : Half, fetch16 s.text (s.pc + 2#32) = .ok next →
          (ITDListed next → exec (.it firstcond mask) s = .fault (.undefined (.itDisabled s.pc (itHalf firstcond mask)))) ∧
          (¬ ITDListed next →
            exec (.it firstcond mask) s =
              .next { s with it := firstcond ++ mask, shouldAdvanceIT := false, pc := s.pc + 2#32 })) ∧
        (s.pc.getLsbD 0 = false →
          s.text.read (s.pc + 2#32) = none ∨ s.text.read (s.pc + 2#32 + 1#32) = none →
            exec (.it firstcond mask) s = .refused (.noText (s.pc + 2#32))))

/-- R22, R83, R89, R92. At `pc == 0xFFFFFFFE` an `IT` outside a block: a bad condition under FAULT and UNDEF faults, for
these tests come before the advance; under NOP, and where the Execute lines are reached, the step is refused with `PcWrap`;
an ITD control that disables the `IT` by its mask is met first. The clauses under `P_ITD` rest on the model's choice of
R86's body (log 3), and `PcWrap` for the fetch past the top that this body makes is the model's inference (log 15). -/
def Obligations.ITAtTopOfAddressSpace : Prop :=
  ∀ (firstcond : Cond) (mask : Mask) (s : State),
    s.pc = 0xFFFFFFFE#32 → mask ≠ 0#4 → inITBlock s.it = false →
      (badCondition firstcond mask = true →
        (s.params.cuIT = .fault →
          exec (.it firstcond mask) s = .fault (.unpredictable (.itBadCondition s.pc (itHalf firstcond mask)))) ∧
        (s.params.cuIT = .undef →
          exec (.it firstcond mask) s = .fault (.undefined (.itBadCondition s.pc (itHalf firstcond mask)))) ∧
        (s.params.cuIT = .nop → exec (.it firstcond mask) s = .refused .pcWrap)) ∧
      (badCondition firstcond mask = false ∨ s.params.cuIT = .execute →
        (s.params.itd = true → mask ≠ 0b1000#4 →
          exec (.it firstcond mask) s = .fault (.undefined (.itDisabled s.pc (itHalf firstcond mask)))) ∧
        (s.params.itd = false ∨ mask = 0b1000#4 → exec (.it firstcond mask) s = .refused .pcWrap))

/-- R90. A next state of `IT` differs from the state before in `PSTATE.IT`, `ShouldAdvanceIT` and the pc alone: the flags,
`other`, the parameters and every byte of the text are unchanged. -/
def Obligations.ITWritesNothingElse : Prop :=
  ∀ (firstcond : Cond) (mask : Mask) (s t : State), mask ≠ 0#4 → exec (.it firstcond mask) s = .next t →
    t.flags = s.flags ∧ t.other = s.other ∧ t.params = s.params ∧ ∀ a : Addr, t.text.read a = s.text.read a

/-- R63, R81. A term `it firstcond 0000`, which no halfword decodes to, means what the excluded row means: the first line
of Decode sends it there (log 18). -/
def Obligations.ITWithZeroMaskIsTheExcludedRow : Prop :=
  ∀ (x : BitVec 4) (s : State), exec (.it x 0#4) s = exec (.misc16 x) s

/-- R115. Under the NOP instantiation `0xBF00` completes, whether its condition passes or not, and changes the pc alone. -/
def Obligations.MiscNopCompletes : Prop :=
  ∀ s : State, inconsistentIT s.it = false → s.params.otherInstr = .nop → s.pc.toNat + 2 < 2 ^ 32 →
    exec (.misc16 0#4) s = .next { s with pc := s.pc + 2#32 }

/-- R63, R115. The excluded row is refused with `NotInSpec` and its halfword where `P_OtherInstr` gives it no meaning: every
`x` under the empty instantiation, every `x` but 0 under NOP alone. -/
def Obligations.MiscRefusedWithoutMeaning : Prop :=
  ∀ (x : BitVec 4) (s : State), inconsistentIT s.it = false →
    (s.params.otherInstr = .empty → exec (.misc16 x) s = .refused (.notInSpec (miscHalf x))) ∧
    (s.params.otherInstr = .nop → x ≠ 0#4 → exec (.misc16 x) s = .refused (.notInSpec (miscHalf x)))

/-- R102, R115. Under the user's instantiation the excluded row does what `P_OtherInstr` answers for its halfword, the state
and whether its condition holds, and is refused where that is undefined. The form of the answer is the model's (log 4). -/
def Obligations.MiscFollowsUserInstantiation : Prop :=
  ∀ (x : BitVec 4) (s : State) (cond : Cond), currentCond s.it = some cond → s.params.otherInstr = .user →
    exec (.misc16 x) s =
      match Config.otherInstr (miscHalf x)
          { pc := s.pc, it := s.it, flags := s.flags, other := s.other, hw2 := none } (conditionHolds cond s.flags) with
      | none => .refused (.notInSpec (miscHalf x))
      | some e => applyOther (miscHalf x) (conditionHolds cond s.flags) e s

/-- R108, R115 (a), (b). What a next state of the excluded row leaves unchanged: `PSTATE.IT`, `ShouldAdvanceIT`, the
parameters and every byte of the text; with a failed condition everything but the pc, which moves by 2. -/
def Obligations.MiscFrame : Prop :=
  ∀ (x : BitVec 4) (s t : State), exec (.misc16 x) s = .next t →
    t.it = s.it ∧ t.shouldAdvanceIT = s.shouldAdvanceIT ∧ t.params = s.params ∧
      (∀ a : Addr, t.text.read a = s.text.read a) ∧
      ∀ cond, currentCond s.it = some cond → conditionHolds cond s.flags = false → t = { s with pc := s.pc + 2#32 }

/-! ### The instructions of the block that are not `IT` -/

/-- R109. In an IT block a 16-bit instruction other than `CMP`, `CMN`, `TST` leaves the flags unchanged whether or not its
condition holds; a comparison sets them when it holds; a 32-bit instruction is not covered. Which halfword is a comparison
is a bit of the effect, the model's choice (log 4); that a failed instruction sets no flags is R108 (D21, log 25). -/
def Obligations.SixteenBitInstructionsKeepFlagsInBlock : Prop :=
  ∀ (hw : Half) (passed : Bool) (e : OtherEffect) (s t : State),
    inITBlock s.it = true → applyOther hw passed e s = .next t →
      (isWide hw = false → e.comparison = false → t.flags = s.flags) ∧
      (isWide hw = false → e.comparison = true → t.flags = if passed then e.flags else s.flags) ∧
      (isWide hw = true → t.flags = if passed then e.flags else s.flags)

/-- R112, R120. A taken branch that lands on a slot of an IT block faults, wherever it stands; one that lands elsewhere is
taken, with its effect on `other` and the flags. R112's decision names a branch from outside the block's execution: the
fault for one from inside the same block is the model's choice (log 16). -/
def Obligations.TakenBranchIntoBlockFaults : Prop :=
  ∀ (hw : Half) (e : OtherEffect) (g : BitVec 31) (s : State), e.target = some g →
    ((g ++ 0#1 : Addr) ∈ s.itSlots →
      applyOther hw true e s = .fault (.unpredictable (.branchIntoITBlock s.pc (g ++ 0#1)))) ∧
    ((g ++ 0#1 : Addr) ∉ s.itSlots →
      applyOther hw true e s =
        .next { s with
          pc := g ++ 0#1, other := e.other
          flags := if isWide hw = false ∧ inITBlock s.it = true ∧ e.comparison = false then s.flags else e.flags })

/-- R108 (the spec's decision D21, log 25). A step over an instruction whose condition does not hold changes the pc by the
instruction's length and advances ITSTATE by R107; `other`, the flags and the text are unchanged. -/
def Obligations.FailedConditionOnlyAdvances : Prop :=
  ∀ (s t : State) (hw : Half) (cond : Cond),
    Fetches s hw → isIT hw = false → currentCond s.it = some cond → conditionHolds cond s.flags = false →
    step s = .next t →
      t = { s with
        pc := s.pc + BitVec.ofNat 32 (if isWide hw then 4 else 2), it := itAdvance s.it, shouldAdvanceIT := true }

/-- R25, R90, R108. No rule of the spec writes the flags or `other` but `P_OtherInstr`: a step that completes leaves both as
they were under the two instantiations of the spec, over every `IT`, and over every instruction whose condition fails. -/
def Obligations.FlagsAndOtherKeptButByOtherInstr : Prop :=
  ∀ s t : State, step s = .next t →
    (s.params.otherInstr ≠ .user → t.flags = s.flags ∧ t.other = s.other) ∧
    (∀ hw, fetch16 s.text s.pc = .ok hw → isIT hw = true → t.flags = s.flags ∧ t.other = s.other) ∧
    ∀ cond, currentCond s.it = some cond → conditionHolds cond s.flags = false →
      t.flags = s.flags ∧ t.other = s.other

/-! ### The step -/

/-- R102. When the two bytes at the pc decode to a well-formed instruction, the step is `exec` of it with
`ShouldAdvanceIT` TRUE, and the advance of ITSTATE after it. -/
def Obligations.StepRunsDecodedInstruction : Prop :=
  ∀ (s : State) (lo hi : Byte) (i : Instr),
    inconsistentIT s.it = false → s.pc ≠ s.params.endAddr → s.pc.getLsbD 0 = false →
    s.text.read s.pc = some lo → s.text.read (s.pc + 1#32) = some hi → decode [lo, hi] = .ok (i, []) → i.wf = true →
      step s = endStep (exec i (s.setShouldAdvanceIT true))

/-- R102, R115. A halfword of no row of the table goes to `P_OtherInstr`. -/
def Obligations.StepHandsOtherHalfwordsOver : Prop :=
  ∀ (s : State) (hw : Half), Fetches s hw → opcodeOf hw ≠ 0xBF#8 →
    step s = endStep (otherInstr hw (s.setShouldAdvanceIT true))

/-- R88. The step of an `IT` leaves in `PSTATE.IT` exactly the value it wrote, which is what slot 1 of its block sees: the
advance is suppressed, and the `IT` is no slot of its own block. -/
def Obligations.StepOfITLeavesSlotOneState : Prop :=
  ∀ (s t : State) (hw : Half), Fetches s hw → SetsITSTATE hw s → step s = .next t →
    t = { s with it := hw.extractLsb' 0 8, shouldAdvanceIT := false, pc := s.pc + 2#32 } ∧
      t.it = slotITSTATE (firstcondOf hw) (maskField hw) 1

/-- R24, R102, R144. An inconsistent `PSTATE.IT` faults before anything else is tested, the end of the run and the presence
of text included. -/
def Obligations.InconsistentITSTATEFaultsFirst : Prop :=
  ∀ s : State, s.it.extractLsb' 0 4 = 0#4 → s.it.extractLsb' 4 4 ≠ 0#4 →
    step s = .fault (.unpredictable (.inconsistentITSTATE s.pc s.it))

/-- R144. At `P_END` no byte is fetched: inside an IT block the step is refused with `EndInsideITBlock`; with
`PSTATE.IT == '00000000'` the state is final. That a final state steps to itself is the model's choice (log 12). -/
def Obligations.EndOfRun : Prop :=
  ∀ s : State, s.pc = s.params.endAddr →
    (s.it.extractLsb' 0 4 ≠ 0#4 → step s = .refused .endInsideITBlock) ∧ (s.it = 0#8 → step s = .next s)

/-- R41. A step whose fetch finds no byte at the pc or after it is refused with `NoText`. -/
def Obligations.FetchOutsideTextRefused : Prop :=
  ∀ s : State, inconsistentIT s.it = false → s.pc ≠ s.params.endAddr → s.pc.getLsbD 0 = false →
    s.text.read s.pc = none ∨ s.text.read (s.pc + 1#32) = none → step s = .refused (.noText s.pc)

/-- R27. `ShouldAdvanceIT` carries nothing from one step to the next: a step that is not at the end of the run answers the
same whatever it holds. -/
def Obligations.StepIgnoresShouldAdvanceIT : Prop :=
  ∀ (s : State) (b : Bool), isFinal s = false → step (s.setShouldAdvanceIT b) = step s

/-- R91. `IT` is not itself conditional and reads no flag: from the same state with other flags the step of an `IT` does the
same; and it completes only from `PSTATE.IT == '00000000'`. -/
def Obligations.ITIsUnconditional : Prop :=
  ∀ (s : State) (hw : Half) (f : Flags), Fetches s hw → isIT hw = true →
    step (s.setFlags f) = mapNext (fun t => t.setFlags f) (step s) ∧ ∀ t, step s = .next t → s.it = 0#8

/-- 95_test_vectors.md, P1 and P2: ITSTATE does not depend on the flags. Under the two instantiations of the spec a whole
step commutes with a change of the flags. -/
def Obligations.ITSTATEIndependentOfFlags : Prop :=
  ∀ (s : State) (f : Flags), s.params.otherInstr ≠ .user →
    step (s.setFlags f) = mapNext (fun t => t.setFlags f) (step s)

/-- R87, R107. A block is entered only through an `IT`: a step from `PSTATE.IT == '00000000'` to another value executes an
`IT` and leaves its low byte. -/
def Obligations.BlockEnteredOnlyByIT : Prop :=
  ∀ s t : State, step s = .next t → s.it = 0#8 → t.it ≠ 0#8 →
    ∃ hw, fetch16 s.text s.pc = .ok hw ∧ isIT hw = true ∧ t.it = hw.extractLsb' 0 8

/-- R120. A step ends in a fault only for the cause the rule gives that fault (`FaultCause`), with the values it says are
recorded. The body of R86 (log 3) and the pc recorded for a branch (log 16) are the model's choice. -/
def Obligations.StepFaultsOnlyForItsCause : Prop :=
  ∀ (s : State) (f : Fault), step s = .fault f → FaultCause s f

/-- R120. A step is refused only for the cause of that refusal (`RefusalCause`): `NotInSpec` exactly where `P_OtherInstr` is
undefined, `PcWrap` where the pc with the instruction's own length does not fit; and never with the refusal kept for an arm
that has no meaning. The odd address (log 14), the second fetch of R86's body (log 3) and `PcWrap` for instructions other
than `IT` (log 15) are the model's choice. -/
def Obligations.StepRefusesOnlyForItsCause : Prop :=
  ∀ (s : State) (r : Refusal), step s = .refused r → RefusalCause s r

/-- R22, R43. From a state of the invariant no step fetches at an odd address (the refusal's name is the model's, log 14). -/
def Obligations.InvariantExcludesOddFetch : Prop :=
  ∀ (s : State) (a : Addr), Inv s → step s ≠ .refused (.oddFetch a)

/-- R22, R24, R115 (c). Every step keeps the invariant: the pc is halfword aligned, `PSTATE.IT` is consistent, the text has
its canonical form. -/
def Obligations.StepKeepsInvariant : Prop :=
  ∀ s t : State, Inv s → step s = .next t → Inv t

/-- R33, R141. The reset state is a legal launch and has the invariant (its pc and its text are the model's, logs 7, 13). -/
def Obligations.ResetIsLegalLaunch : Prop :=
  LegalLaunch State.reset ∧ Inv State.reset

/-- R24, R33, R113, R141. Every legal launch has the invariant, one inside an IT block included; one with
`PSTATE.IT == '00000000'` starts on no slot, and any other starts on a slot of a listed `IT`, with that slot's condition.
How "consistent" is read is the model's inference (log 26). -/
def Obligations.LegalLaunchHasInvariant : Prop :=
  ∀ s : State, LegalLaunch s →
    Inv s ∧ (s.it = 0#8 → s.pc ∉ s.itSlots) ∧
      (s.it ≠ 0#8 → s.pc ∈ s.itSlots ∧ inITBlock s.it = true ∧
        ∃ firstcond mask k, currentCond s.it = some (slotCond firstcond mask k) ∧ 1 ≤ k ∧ k ≤ blockLength mask ∧
          ∃ a ∈ s.params.its, fetch16 s.text a = .ok (itHalf firstcond mask) ∧
            (blockSlots s.params s.text a)[k - 1]? = some s.pc)

/-- R49, R141 (f), R145. No step changes the parameters or any byte of the text. -/
def Obligations.StepKeepsTextAndParameters : Prop :=
  ∀ s t : State, step s = .next t → SameRun s t ∧ ∀ a : Addr, t.text.read a = s.text.read a

/-- R7, R33. The reset state: `PSTATE.IT` and the parameters at the values the spec gives; the pc, the flags,
`ShouldAdvanceIT`, `other`, `P_END` and the empty text are the model's choice (logs 5, 7, 8, 10, 11, 13). -/
def Obligations.ResetValues : Prop :=
  State.reset.it = 0#8 ∧ State.reset.params.itd = false ∧ State.reset.params.cuIT = .fault ∧
    State.reset.params.otherInstr = .empty ∧ State.reset.pc = 0x00008000#32 ∧
    State.reset.flags = { n := false, z := false, c := false, v := false } ∧ State.reset.shouldAdvanceIT = true ∧
    State.reset.other = [] ∧ State.reset.params.endAddr = 0#32 ∧ State.reset.params.its = [] ∧
    ∀ a : Addr, State.reset.text.read a = none

/-! ### The ITSTATE machine and the block -/

/-- R105. `CurrentCond()`, whose body is general knowledge of the spec's (GK5, log 17). -/
def Obligations.CurrentCondCases : Prop :=
  ∀ b : ITBits,
    (b.extractLsb' 0 4 ≠ 0#4 → currentCond b = some (b.extractLsb' 4 4)) ∧
    (b = 0#8 → currentCond b = some 0b1110#4) ∧
    (b.extractLsb' 0 4 = 0#4 → b ≠ 0#8 → currentCond b = none)

/-- R107. `ITAdvance()` on every value: bits 7:5 stay and bits 4:0 shift left by one, or all eight bits clear. The body is
general knowledge of the spec's (GK4, log 17). -/
def Obligations.ITAdvanceCases : Prop :=
  ∀ b : ITBits,
    (b.extractLsb' 0 3 = 0#3 → itAdvance b = 0#8) ∧
    (b.extractLsb' 0 3 ≠ 0#3 →
      (itAdvance b).extractLsb' 5 3 = b.extractLsb' 5 3 ∧ (itAdvance b).extractLsb' 1 4 = b.extractLsb' 0 4 ∧
        (itAdvance b).getLsbD 0 = false)

/-- R101. The condition of each slot, and when it is `firstcond` (letter T) or its inverse (letter E). -/
def Obligations.SlotConditions : Prop :=
  ∀ (firstcond : Cond) (mask : Mask),
    slotCond firstcond mask 1 = firstcond ∧
    slotCond firstcond mask 2 = (firstcond.extractLsb' 1 3 : BitVec 3) ++ (mask.extractLsb' 3 1 : BitVec 1) ∧
    slotCond firstcond mask 3 = (firstcond.extractLsb' 1 3 : BitVec 3) ++ (mask.extractLsb' 2 1 : BitVec 1) ∧
    slotCond firstcond mask 4 = (firstcond.extractLsb' 1 3 : BitVec 3) ++ (mask.extractLsb' 1 1 : BitVec 1) ∧
    ∀ k, 2 ≤ k → k ≤ 4 →
      slotCond firstcond mask k =
        if mask.getLsbD (5 - k) = firstcond.getLsbD 0 then firstcond else firstcond ^^^ 1#4

/-- R101, R104, R107, R114. The walk through a block: in slot `k` the current condition is the slot's, the slot is the last
exactly when `k` is the block's length, and a step that completes leaves the next slot's state, or zero after the last. -/
def Obligations.StepWalksTheBlock : Prop :=
  ∀ (firstcond : Cond) (mask : Mask) (k : Nat) (s t : State),
    mask ≠ 0#4 → 1 ≤ k → k ≤ blockLength mask → s.it = slotITSTATE firstcond mask k →
      currentCond s.it = some (slotCond firstcond mask k) ∧ (lastInITBlock s.it = true ↔ k = blockLength mask) ∧
        (step s = .next t →
          t.it = if k = blockLength mask then 0#8 else slotITSTATE firstcond mask (k + 1))

/-- R100, R107, R114. A whole block: when an `IT` has run and `j` more steps have completed, with `j` at most the block's
length `n`, ITSTATE is what slot `j + 1` sees, and zero when `j` is `n`. -/
def Obligations.BlockLastsItsLength : Prop :=
  ∀ (s t : State) (hw : Half) (j : Nat),
    Fetches s hw → SetsITSTATE hw s → j ≤ blockLength (maskField hw) →
    Host.Core.run Sys2Proof.core (j + 1) s = .next t →
      t.it = if j = blockLength (maskField hw) then 0#8 else slotITSTATE (firstcondOf hw) (maskField hw) (j + 1)

/-- R100. The addresses the machine executes in a block of NOPs are those `blockSlots` computes from the text under the run's
parameters, in order. -/
def Obligations.BlockSlotsAreExecuted : Prop :=
  ∀ (s t : State) (hw : Half) (j : Nat),
    Fetches s hw → SetsITSTATE hw s → s.params.otherInstr = .nop → j < blockLength (maskField hw) →
    Host.Core.run Sys2Proof.core (j + 1) s = .next t →
      (blockSlots s.params s.text s.pc)[j]? = some t.pc

/-- R22, R83, R86, R100. The slots of an `IT` in the text that sets ITSTATE: at least one and at most `n`, with
`1 <= n <= 4`, the first at `a + 2`. An `IT` that sets none has no slots: at the top of the address space, with a bad
condition that is not executed, disabled by ITD controls, or refused because the halfword they look at is not in the text
(the model's inference, logs 16 and 26; the body of R86 is log 3). -/
def Obligations.BlockSlotsShape : Prop :=
  ∀ (p : Params) (m : Memory) (a : Addr) (hw : Half), fetch16 m a = .ok hw → isIT hw = true →
    (a.toNat + 2 < 2 ^ 32 → (badCondition (firstcondOf hw) (maskField hw) = false ∨ p.cuIT = .execute) →
      (p.itd = false ∨
        (maskField hw = 0b1000#4 ∧ ∃ next, fetch16 m (a + 2#32) = .ok next ∧ ¬ ITDListed next)) →
      (blockSlots p m a).head? = some (a + 2#32) ∧ 1 ≤ (blockSlots p m a).length ∧
        (blockSlots p m a).length ≤ blockLength (maskField hw) ∧ 1 ≤ blockLength (maskField hw) ∧
        blockLength (maskField hw) ≤ 4) ∧
    (2 ^ 32 ≤ a.toNat + 2 → blockSlots p m a = []) ∧
    (badCondition (firstcondOf hw) (maskField hw) = true → p.cuIT ≠ .execute → blockSlots p m a = []) ∧
    (p.itd = true → maskField hw ≠ 0b1000#4 → blockSlots p m a = []) ∧
    (p.itd = true → ∀ next, fetch16 m (a + 2#32) = .ok next → ITDListed next → blockSlots p m a = []) ∧
    (p.itd = true → m.read (a + 2#32) = none ∨ m.read (a + 2#32 + 1#32) = none → blockSlots p m a = [])

/-- R83, R110. Under `AL` every slot executes: with the masks R82 allows every slot's condition is `'1110'`; with any mask,
and with `'1111'`, the `EXECUTE` choice makes every slot pass. -/
def Obligations.AlwaysBlocksPass : Prop :=
  ∀ (mask : Mask) (k : Nat) (f : Flags), mask ≠ 0#4 → 1 ≤ k → k ≤ blockLength mask →
    (bitCount mask = 1 → slotCond 0b1110#4 mask k = 0b1110#4) ∧
      conditionHolds (slotCond 0b1110#4 mask k) f = true ∧ conditionHolds (slotCond 0b1111#4 mask k) f = true

/-- R67, R106. The sixteen conditions, each as the test of its row. The table is general knowledge of the spec's (GK1,
log 17). -/
def Obligations.ConditionTable : Prop :=
  ∀ f : Flags,
    conditionHolds 0b0000#4 f = f.z ∧ conditionHolds 0b0001#4 f = !f.z ∧
    conditionHolds 0b0010#4 f = f.c ∧ conditionHolds 0b0011#4 f = !f.c ∧
    conditionHolds 0b0100#4 f = f.n ∧ conditionHolds 0b0101#4 f = !f.n ∧
    conditionHolds 0b0110#4 f = f.v ∧ conditionHolds 0b0111#4 f = !f.v ∧
    conditionHolds 0b1000#4 f = (f.c && !f.z) ∧ conditionHolds 0b1001#4 f = (!f.c || f.z) ∧
    conditionHolds 0b1010#4 f = (f.n == f.v) ∧ conditionHolds 0b1011#4 f = (f.n != f.v) ∧
    conditionHolds 0b1100#4 f = (!f.z && f.n == f.v) ∧ conditionHolds 0b1101#4 f = (f.z || f.n != f.v) ∧
    conditionHolds 0b1110#4 f = true ∧ conditionHolds 0b1111#4 f = true

/-- R8. `BitCount`: the number of bits that are `1`, and its values on a mask. -/
def Obligations.BitCountOfMask : Prop :=
  (∀ (w : Nat) (v : BitVec w), bitCount v = ((Finset.range w).filter fun i => v.getLsbD i = true).card) ∧
    (∀ mask : Mask, bitCount mask = 1 ↔
      mask = 0b1000#4 ∨ mask = 0b0100#4 ∨ mask = 0b0010#4 ∨ mask = 0b0001#4) ∧
    bitCount 0b0000#4 = 0 ∧ bitCount 0b1111#4 = 4

/-! ### Encoding, fetch and the assembler -/

/-- R60, R61, R63, R65. Decode and encode agree on bytes: every well-formed instruction, stored before any other bytes, is
read back, and what the decoder reads is well formed and was stored so. -/
def Obligations.DecodeEncodeAgree : Prop :=
  (∀ (i : Instr) (rest : List Byte), i.wf = true → decode (encodeBytes i ++ rest) = .ok (i, rest)) ∧
    ∀ (bytes rest : List Byte) (i : Instr), decode bytes = .ok (i, rest) → i.wf = true ∧ bytes = encodeBytes i ++ rest

/-- R61. A halfword decodes to `IT` if and only if its top byte is `0xBF` and its low four bits are not zero, and the fields
are then its bits 7:4 and 3:0. -/
def Obligations.HalfwordIsITIff : Prop :=
  ∀ hw : Half,
    ((∃ firstcond mask, decodeHalf hw = .ok (.it firstcond mask)) ↔
      hw.extractLsb' 8 8 = 0b10111111#8 ∧ hw.extractLsb' 0 4 ≠ 0b0000#4) ∧
    ((hw &&& 0xFF00#16 = 0xBF00#16 ∧ hw &&& 0x000F#16 ≠ 0#16) ↔
      hw.extractLsb' 8 8 = 0b10111111#8 ∧ hw.extractLsb' 0 4 ≠ 0b0000#4) ∧
    ∀ firstcond mask, decodeHalf hw = .ok (.it firstcond mask) →
      firstcond = hw.extractLsb' 4 4 ∧ mask = hw.extractLsb' 0 4

/-- R64. The classes of the 256 halfwords `0xBF00 | b`, by condition and by count. -/
def Obligations.HalfwordClasses : Prop :=
  (∀ c m : BitVec 4,
    classify ((0xBF#8 ++ c) ++ m) =
      if m = 0b0000#4 then .notIT
      else if c = 0b1111#4 then .constrainedUnpredictable
      else if c = 0b1110#4 ∧ ¬ (m = 0b1000#4 ∨ m = 0b0100#4 ∨ m = 0b0010#4 ∨ m = 0b0001#4) then
        .constrainedUnpredictable
      else .valid) ∧
    ((List.range 256).countP fun b => classify (0xBF#8 ++ BitVec.ofNat 8 b) = .notIT) = 16 ∧
    ((List.range 256).countP fun b => classify (0xBF#8 ++ BitVec.ofNat 8 b) = .valid) = 214 ∧
    ((List.range 256).countP fun b => classify (0xBF#8 ++ BitVec.ofNat 8 b) = .constrainedUnpredictable) = 26

/-- 30_encoding.md, 95_test_vectors.md section 2.1: words written out from the encoding, as the bytes stored. -/
def Obligations.WordsDecodeAsWritten : Prop :=
  decode [0x06#8, 0xBF#8] = .ok (.it 0b0000#4 0b0110#4, []) ∧
    decode [0xE8#8, 0xBF#8] = .ok (.it 0b1110#4 0b1000#4, []) ∧
    decode [0xD1#8, 0xBF#8] = .ok (.it 0b1101#4 0b0001#4, []) ∧
    decode [0x00#8, 0xBF#8] = .ok (.misc16 0b0000#4, []) ∧
    decode [0xF0#8, 0xBF#8] = .ok (.misc16 0b1111#4, []) ∧
    decode [0xBF#8, 0x06#8] = .error (.outsideTable 0x06BF#16) ∧
    decode [0x08#8, 0xFF#8] = .error (.wide 0xFF08#16)

/-- R42. Instruction fetch is little-endian (the spec's decision D4, log 24); the bytes of an `IT` are `firstcond : mask` and
then `0xBF`. -/
def Obligations.FetchIsLittleEndian : Prop :=
  (∀ (m : Memory) (a : Addr) (lo hi : Byte), a.getLsbD 0 = false → m.read a = some lo → m.read (a + 1#32) = some hi →
    ∃ hw, fetch16 m a = .ok hw ∧ hw.extractLsb' 0 8 = lo ∧ hw.extractLsb' 8 8 = hi) ∧
    ∀ (firstcond : Cond) (mask : Mask), encodeBytes (.it firstcond mask) = [firstcond ++ mask, 0xBF#8]

/-- 20_memory.md: a halfword placed in the text is fetched back, and no other byte of the text has changed. -/
def Obligations.PlacedHalfwordIsFetched : Prop :=
  ∀ (m : Memory) (a : Addr) (hw : Half), a.getLsbD 0 = false →
    fetch16 (m.writeBytes a (bytesOfHalf hw)) a = .ok hw ∧
      ∀ b : Addr, b ≠ a → b ≠ a + 1#32 → (m.writeBytes a (bytesOfHalf hw)).read b = m.read b

/-- R41, R102. A table word stored where the step fetches is the very next instruction run. How a program is loaded is the
model's (log 13). -/
def Obligations.FetchWordRunsNext : Prop :=
  ∀ (s : State) (w : Nat) (i : Instr),
    inconsistentIT s.it = false → s.pc.getLsbD 0 = false → decodeTableWord 16 w = some i →
      step (s.withFetchWord 16 w) = endStep (exec i ((s.withFetchWord 16 w).setShouldAdvanceIT true))

/-- R68. The mask of the letters, form by form. -/
def Obligations.MaskOfLetters : Prop :=
  ∀ (f : Bool) (x y z : Letter),
    maskOf f [] = some 0b1000#4 ∧
    maskOf f [x] = some (BitVec.ofBool (if x = .t then f else !f) ++ 0b100#3) ∧
    maskOf f [x, y] =
      some (BitVec.ofBool (if x = .t then f else !f) ++ BitVec.ofBool (if y = .t then f else !f) ++ 0b10#2) ∧
    maskOf f [x, y, z] =
      some (BitVec.ofBool (if x = .t then f else !f) ++ BitVec.ofBool (if y = .t then f else !f) ++
        BitVec.ofBool (if z = .t then f else !f) ++ 0b1#1)

/-- R68, R69, R70. Assembling and disassembling agree: a line that has a halfword, with `.N` or without a qualifier, is read
back from it without the qualifier, which the halfword does not hold; and the line read from a valid halfword has that
halfword. -/
def Obligations.AssembleDisassembleAgree : Prop :=
  (∀ (a : AsmLine) (hw : Half), lineHalf a = some hw → disassemble hw = some { a with qualifier := .none }) ∧
    ∀ (a : AsmLine) (hw : Half), disassemble hw = some a → lineHalf a = some hw

/-- R72. An A32 line is checked as a T32 line is, and emits zero bytes where the T32 line emits the two bytes of its
halfword. -/
def Obligations.A32EmitsNothing : Prop :=
  ∀ a : AsmLine,
    (lineHalf a = none → assemble .a32 a = none ∧ assemble .t32 a = none) ∧
      ∀ hw, lineHalf a = some hw →
        assemble .a32 a = some [] ∧ assemble .t32 a = some [hw.extractLsb' 0 8, hw.extractLsb' 8 8]

/-- R26. The CPSR view: the flags, `PSTATE.IT[1:0]`, `PSTATE.IT[7:2]` and `T` stand at the bits of the table, the other bits
are those of the fields the model does not hold, and restoring a view gives the fields back, whatever the
fields the model does not hold. The layout is general knowledge (log 22). -/
def Obligations.CPSRHoldsTheFields : Prop :=
  ∀ (s t : State) (rest : Word),
    (cpsrView rest s).getLsbD 31 = s.flags.n ∧ (cpsrView rest s).getLsbD 30 = s.flags.z ∧
      (cpsrView rest s).getLsbD 29 = s.flags.c ∧ (cpsrView rest s).getLsbD 28 = s.flags.v ∧
      (cpsrView rest s).extractLsb' 25 2 = s.it.extractLsb' 0 2 ∧
      (cpsrView rest s).extractLsb' 10 6 = s.it.extractLsb' 2 6 ∧
      (cpsrView rest s).getLsbD 5 = true ∧
      (cpsrView rest s).getLsbD 27 = rest.getLsbD 27 ∧
      (cpsrView rest s).extractLsb' 16 9 = rest.extractLsb' 16 9 ∧
      (cpsrView rest s).extractLsb' 6 4 = rest.extractLsb' 6 4 ∧
      (cpsrView rest s).extractLsb' 0 5 = rest.extractLsb' 0 5 ∧
      t.restoreCPSR (cpsrView rest s) = { t with flags := s.flags, it := s.it }

/-! ### What an instruction that is not `IT` does, and what a line assembles to -/

/-- R109, R115 (c). The effect of an instruction that is not `IT`, whose condition holds and that does not branch: the pc
advances by 2, or by 4 for a 32-bit instruction, `other` is the effect's, and so are the flags, but for a 16-bit instruction
in a block that is no comparison. The form of the effect is the model's choice (log 4). -/
def Obligations.OtherInstrHasItsEffect : Prop :=
  ∀ (hw : Half) (e : OtherEffect) (s : State), e.target = none →
    s.pc.toNat + (if isWide hw then 4 else 2) < 2 ^ 32 →
      applyOther hw true e s =
        .next { s with
          pc := s.pc + BitVec.ofNat 32 (if isWide hw then 4 else 2), other := e.other
          flags := if isWide hw = false ∧ inITBlock s.it = true ∧ e.comparison = false then s.flags else e.flags }

/-- R41, R102, R115. The step over a halfword that is not `IT`: the second halfword is fetched when the first announces it,
`P_OtherInstr` is asked with whether the slot's condition holds, and the step is its effect with the advance of ITSTATE, or
`NotInSpec` where it is undefined. -/
def Obligations.StepAsksOtherInstr : Prop :=
  ∀ (s : State) (hw : Half) (cond : Cond),
    Fetches s hw → isIT hw = false → currentCond s.it = some cond →
      (∀ hw2 e, secondHalf hw s = .ok hw2 → pOtherInstr hw (conditionHolds cond s.flags) hw2 s = some e →
        step s = endStep (applyOther hw (conditionHolds cond s.flags) e (s.setShouldAdvanceIT true))) ∧
      (∀ hw2, secondHalf hw s = .ok hw2 → pOtherInstr hw (conditionHolds cond s.flags) hw2 s = none →
        step s = .refused (.notInSpec hw)) ∧
      (isWide hw = false → secondHalf hw s = .ok none) ∧
      ∀ hw2, isWide hw = true → s.pc.toNat + 2 < 2 ^ 32 → fetch16 s.text (s.pc + 2#32) = .ok hw2 →
        secondHalf hw s = .ok (some hw2)

/-- R41. The second halfword of a 32-bit instruction is fetched whatever `P_OtherInstr` is: where the text does not hold it
the step is refused with `NoText`. Where its address does not fit in 32 bits the refusal is `PcWrap`, the model's inference
(log 15). -/
def Obligations.SecondHalfwordOutsideTextRefused : Prop :=
  ∀ (s : State) (hw : Half), Fetches s hw → isWide hw = true →
    (s.pc.toNat + 2 < 2 ^ 32 → s.text.read (s.pc + 2#32) = none ∨ s.text.read (s.pc + 2#32 + 1#32) = none →
      step s = .refused (.noText (s.pc + 2#32))) ∧
    (2 ^ 32 ≤ s.pc.toNat + 2 → step s = .refused .pcWrap)

/-- R64, R66, R68 to R70. Which lines have a halfword, and which halfword: those with at most three letters and no `.W`, whose
condition and mask are not constrained unpredictable; it is `'10111111'`, the condition and the mask of the letters, the
same with `.N` as without. That `.W` is not assemblable is log 23. -/
def Obligations.LineHalfword : Prop :=
  ∀ (a : AsmLine) (hw : Half),
    lineHalf a = some hw ↔
      a.qualifier ≠ .wide ∧
        ∃ mask, maskOf (condLow a.cond) a.letters = some mask ∧ badCondition a.cond mask = false ∧
          hw.extractLsb' 8 8 = 0b10111111#8 ∧ hw.extractLsb' 4 4 = a.cond ∧ hw.extractLsb' 0 4 = mask

/-! ### Every instantiation, and the set of slots -/

/-- R7, R41, R102, R115. Every halfword that is not `IT`, of a row of the table or of none, under each instantiation, once its
second halfword is fetched where it announces one: refused with `NotInSpec` under the empty one (D13), and under NOP alone
unless it is `0xBF00`, which only advances; under the user's, what `Config.otherInstr` answers, which has no body. The form
of the user's answer is the model's choice (log 4). -/
def Obligations.OtherInstrUnderEachInstantiation : Prop :=
  ∀ (s : State) (hw : Half) (hw2 : Option Half) (cond : Cond),
    Fetches s hw → isIT hw = false → currentCond s.it = some cond →
    ((isWide hw = false ∧ hw2 = none) ∨
      (isWide hw = true ∧ s.pc.toNat + 2 < 2 ^ 32 ∧ ∃ h, fetch16 s.text (s.pc + 2#32) = .ok h ∧ hw2 = some h)) →
      (s.params.otherInstr = .empty → step s = .refused (.notInSpec hw)) ∧
      (s.params.otherInstr = .nop → hw ≠ 0xBF00#16 → step s = .refused (.notInSpec hw)) ∧
      (s.params.otherInstr = .nop → hw = 0xBF00#16 → s.pc.toNat + 2 < 2 ^ 32 →
        step s = .next { s with pc := s.pc + 2#32, it := itAdvance s.it, shouldAdvanceIT := true }) ∧
      (s.params.otherInstr = .user →
        step s =
          match Config.otherInstr hw { pc := s.pc, it := s.it, flags := s.flags, other := s.other, hw2 := hw2 }
              (conditionHolds cond s.flags) with
          | none => .refused (.notInSpec hw)
          | some e => endStep (applyOther hw (conditionHolds cond s.flags) e (s.setShouldAdvanceIT true)))

/-- R83, R112. The set of slots that a branch must not land on: those of the listed `IT`s under the run's parameters, where
under FAULT, which stands for any of the three behaviours, a bad `IT` counts as executed, so that what follows it is a slot.
The list and the reading of FAULT are the model's choice (log 16). -/
def Obligations.SlotsOfTheListedITs : Prop :=
  ∀ s : State,
    (s.params.cuIT ≠ .fault →
      ∀ b, b ∈ s.itSlots ↔ ∃ a ∈ s.params.its, b ∈ blockSlots s.params s.text a) ∧
    (s.params.cuIT = .fault →
      ∀ b, b ∈ s.itSlots ↔ ∃ a ∈ s.params.its, b ∈ blockSlots { s.params with cuIT := .execute } s.text a) ∧
    ∀ a hw, a ∈ s.params.its → fetch16 s.text a = .ok hw → classify hw = .constrainedUnpredictable →
      s.params.itd = false → a.toNat + 2 < 2 ^ 32 →
        (s.params.cuIT = .fault ∨ s.params.cuIT = .execute → a + 2#32 ∈ s.itSlots)
end

