-- ==== Sys2Proof/Laws/Memory.lean ====
section
/-! SUPPORT. The laws of the program text: a read after a write (R41), and that every operation keeps the canonical form. -/

namespace Sys2Proof.Machine

theorem lookupCell_insertCell (m : Memory) (a k : Nat) (b : Byte) :
    lookupCell (insertCell m a b) k = if a = k then some b else lookupCell m k := by
  induction m with
  | nil => rfl
  | cons cell m ih =>
    obtain ⟨c, v⟩ := cell
    simp only [insertCell]
    split
    · rfl
    · split
      · subst_vars; simp only [lookupCell]; split <;> simp_all
      · simp only [lookupCell, ih]; split <;> split <;> simp_all

theorem Memory.read_write (m : Memory) (a a' : Addr) (b : Byte) :
    (m.write a b).read a' = if a = a' then some b else m.read a' := by
  simp [Memory.read, Memory.write, lookupCell_insertCell, BitVec.toNat_inj]

@[simp] theorem Memory.read_write_same (m : Memory) (a : Addr) (b : Byte) : (m.write a b).read a = some b := by
  simp [Memory.read_write]

theorem Memory.read_write_other (m : Memory) {a a' : Addr} (b : Byte) (h : a ≠ a') :
    (m.write a b).read a' = m.read a' := by
  simp [Memory.read_write, h]

theorem wfFrom_mono {lo lo' : Nat} {m : Memory} (hle : lo' ≤ lo) (h : wfFrom lo m = true) : wfFrom lo' m = true := by
  cases m with
  | nil => rfl
  | cons cell m =>
    obtain ⟨c, v⟩ := cell
    simp only [wfFrom, Bool.and_eq_true, decide_eq_true_eq] at h ⊢
    exact ⟨⟨le_trans hle h.1.1, h.1.2⟩, h.2⟩

theorem wfFrom_insertCell {lo a : Nat} (m : Memory) (b : Byte) (hlo : lo ≤ a) (ha : a < 2 ^ 32)
    (h : wfFrom lo m = true) : wfFrom lo (insertCell m a b) = true := by
  induction m generalizing lo with
  | nil => simpa [insertCell, wfFrom, hlo] using ha
  | cons cell m ih =>
    obtain ⟨c, v⟩ := cell
    simp only [wfFrom, Bool.and_eq_true, decide_eq_true_eq] at h
    obtain ⟨⟨hc, hc32⟩, hm⟩ := h
    simp only [insertCell]
    split
    · simp only [wfFrom, Bool.and_eq_true, decide_eq_true_eq]
      exact ⟨⟨hlo, ha⟩, ⟨by omega, hc32⟩, hm⟩
    · split
      · subst_vars
        simp only [wfFrom, Bool.and_eq_true, decide_eq_true_eq]
        exact ⟨⟨hlo, ha⟩, hm⟩
      · simp only [wfFrom, Bool.and_eq_true, decide_eq_true_eq]
        exact ⟨⟨hc, hc32⟩, ih (by omega) hm⟩

/-- A write keeps the canonical form. -/
theorem Memory.wf_write (m : Memory) (a : Addr) (b : Byte) (h : m.wf = true) : (m.write a b).wf = true :=
  wfFrom_insertCell m b (Nat.zero_le _) a.isLt h

/-- A write of several bytes keeps the canonical form. -/
theorem Memory.wf_writeBytes (m : Memory) (a : Addr) (bs : List Byte) (h : m.wf = true) :
    (m.writeBytes a bs).wf = true := by
  induction bs generalizing m a with
  | nil => exact h
  | cons b bs ih => exact ih _ _ (Memory.wf_write m a b h)

/-- The text of the reset state has the canonical form. -/
theorem State.reset_text_wf : State.reset.text.wf = true := rfl

/-- Placing bytes at the pc keeps the canonical form. -/
theorem State.placeAtPC_text_wf (s : State) (bs : List Byte) (h : s.text.wf = true) :
    (s.placeAtPC bs).text.wf = true :=
  Memory.wf_writeBytes s.text s.pc bs h

/-- The byte after an address has another address. -/
theorem succ_ne_self (a : Addr) : a ≠ a + 1#32 := by
  intro heq
  have : a.toNat = (a + 1#32).toNat := congrArg BitVec.toNat heq
  simp [BitVec.toNat_add] at this
  have hlt := a.isLt
  omega

/-- What `fetch16` answers when it answers (R41, R42). -/
theorem fetch16_ok {m : Memory} {a : Addr} {hw : Half} (h : fetch16 m a = .ok hw) :
    a.getLsbD 0 = false ∧ ∃ lo hi, m.read a = some lo ∧ m.read (a + 1#32) = some hi ∧ hw = halfOfBytes lo hi := by
  simp only [fetch16] at h
  split at h
  · cases h
  · rename_i heven
    split at h
    · rename_i lo hi hlo hhi
      cases h
      exact ⟨by simpa using heven, lo, hi, hlo, hhi, rfl⟩
    · cases h

/-- The reasons `fetch16` refuses with (R41, R43). -/
theorem fetch16_error {m : Memory} {a : Addr} {r : Refusal} (h : fetch16 m a = .error r) :
    (r = .oddFetch a ∧ a.getLsbD 0 = true) ∨
      (r = .noText a ∧ a.getLsbD 0 = false ∧ (m.read a = none ∨ m.read (a + 1#32) = none)) := by
  simp only [fetch16] at h
  split at h
  · cases h; exact .inl ⟨rfl, by assumption⟩
  · rename_i heven
    split at h
    · cases h
    · rename_i hnot
      cases h
      refine .inr ⟨rfl, by simpa using heven, ?_⟩
      cases hlo : m.read a with
      | none => exact .inl rfl
      | some lo =>
        cases hhi : m.read (a + 1#32) with
        | none => exact .inr rfl
        | some hi => exact (hnot lo hi hlo hhi).elim

end Sys2Proof.Machine
end

