-- ==== Sys2Proof/Laws/State.lean ====
section
/-! SUPPORT. One lemma per field of State per update, so that no later proof unfolds a record update. -/

namespace Sys2Proof.Machine

/-! ### setPC -/

@[simp] theorem State.setPC_pc (s : State) (x : Addr) : (s.setPC x).pc = x := rfl
@[simp] theorem State.setPC_it (s : State) (x : Addr) : (s.setPC x).it = s.it := rfl
@[simp] theorem State.setPC_flags (s : State) (x : Addr) : (s.setPC x).flags = s.flags := rfl
@[simp] theorem State.setPC_shouldAdvanceIT (s : State) (x : Addr) : (s.setPC x).shouldAdvanceIT = s.shouldAdvanceIT := rfl
@[simp] theorem State.setPC_other (s : State) (x : Addr) : (s.setPC x).other = s.other := rfl
@[simp] theorem State.setPC_text (s : State) (x : Addr) : (s.setPC x).text = s.text := rfl
@[simp] theorem State.setPC_params (s : State) (x : Addr) : (s.setPC x).params = s.params := rfl

/-! ### setIT -/

@[simp] theorem State.setIT_pc (s : State) (x : ITBits) : (s.setIT x).pc = s.pc := rfl
@[simp] theorem State.setIT_it (s : State) (x : ITBits) : (s.setIT x).it = x := rfl
@[simp] theorem State.setIT_flags (s : State) (x : ITBits) : (s.setIT x).flags = s.flags := rfl
@[simp] theorem State.setIT_shouldAdvanceIT (s : State) (x : ITBits) : (s.setIT x).shouldAdvanceIT = s.shouldAdvanceIT := rfl
@[simp] theorem State.setIT_other (s : State) (x : ITBits) : (s.setIT x).other = s.other := rfl
@[simp] theorem State.setIT_text (s : State) (x : ITBits) : (s.setIT x).text = s.text := rfl
@[simp] theorem State.setIT_params (s : State) (x : ITBits) : (s.setIT x).params = s.params := rfl

/-! ### setFlags -/

@[simp] theorem State.setFlags_pc (s : State) (x : Flags) : (s.setFlags x).pc = s.pc := rfl
@[simp] theorem State.setFlags_it (s : State) (x : Flags) : (s.setFlags x).it = s.it := rfl
@[simp] theorem State.setFlags_flags (s : State) (x : Flags) : (s.setFlags x).flags = x := rfl
@[simp] theorem State.setFlags_shouldAdvanceIT (s : State) (x : Flags) : (s.setFlags x).shouldAdvanceIT = s.shouldAdvanceIT := rfl
@[simp] theorem State.setFlags_other (s : State) (x : Flags) : (s.setFlags x).other = s.other := rfl
@[simp] theorem State.setFlags_text (s : State) (x : Flags) : (s.setFlags x).text = s.text := rfl
@[simp] theorem State.setFlags_params (s : State) (x : Flags) : (s.setFlags x).params = s.params := rfl

/-! ### setShouldAdvanceIT -/

@[simp] theorem State.setShouldAdvanceIT_pc (s : State) (x : Bool) : (s.setShouldAdvanceIT x).pc = s.pc := rfl
@[simp] theorem State.setShouldAdvanceIT_it (s : State) (x : Bool) : (s.setShouldAdvanceIT x).it = s.it := rfl
@[simp] theorem State.setShouldAdvanceIT_flags (s : State) (x : Bool) : (s.setShouldAdvanceIT x).flags = s.flags := rfl
@[simp] theorem State.setShouldAdvanceIT_shouldAdvanceIT (s : State) (x : Bool) : (s.setShouldAdvanceIT x).shouldAdvanceIT = x := rfl
@[simp] theorem State.setShouldAdvanceIT_other (s : State) (x : Bool) : (s.setShouldAdvanceIT x).other = s.other := rfl
@[simp] theorem State.setShouldAdvanceIT_text (s : State) (x : Bool) : (s.setShouldAdvanceIT x).text = s.text := rfl
@[simp] theorem State.setShouldAdvanceIT_params (s : State) (x : Bool) : (s.setShouldAdvanceIT x).params = s.params := rfl

/-! ### setOther -/

@[simp] theorem State.setOther_pc (s : State) (x : List Word) : (s.setOther x).pc = s.pc := rfl
@[simp] theorem State.setOther_it (s : State) (x : List Word) : (s.setOther x).it = s.it := rfl
@[simp] theorem State.setOther_flags (s : State) (x : List Word) : (s.setOther x).flags = s.flags := rfl
@[simp] theorem State.setOther_shouldAdvanceIT (s : State) (x : List Word) : (s.setOther x).shouldAdvanceIT = s.shouldAdvanceIT := rfl
@[simp] theorem State.setOther_other (s : State) (x : List Word) : (s.setOther x).other = x := rfl
@[simp] theorem State.setOther_text (s : State) (x : List Word) : (s.setOther x).text = s.text := rfl
@[simp] theorem State.setOther_params (s : State) (x : List Word) : (s.setOther x).params = s.params := rfl

/-! ### setText -/

@[simp] theorem State.setText_pc (s : State) (x : Memory) : (s.setText x).pc = s.pc := rfl
@[simp] theorem State.setText_it (s : State) (x : Memory) : (s.setText x).it = s.it := rfl
@[simp] theorem State.setText_flags (s : State) (x : Memory) : (s.setText x).flags = s.flags := rfl
@[simp] theorem State.setText_shouldAdvanceIT (s : State) (x : Memory) : (s.setText x).shouldAdvanceIT = s.shouldAdvanceIT := rfl
@[simp] theorem State.setText_other (s : State) (x : Memory) : (s.setText x).other = s.other := rfl
@[simp] theorem State.setText_text (s : State) (x : Memory) : (s.setText x).text = x := rfl
@[simp] theorem State.setText_params (s : State) (x : Memory) : (s.setText x).params = s.params := rfl

/-! ### setParams -/

@[simp] theorem State.setParams_pc (s : State) (x : Params) : (s.setParams x).pc = s.pc := rfl
@[simp] theorem State.setParams_it (s : State) (x : Params) : (s.setParams x).it = s.it := rfl
@[simp] theorem State.setParams_flags (s : State) (x : Params) : (s.setParams x).flags = s.flags := rfl
@[simp] theorem State.setParams_shouldAdvanceIT (s : State) (x : Params) : (s.setParams x).shouldAdvanceIT = s.shouldAdvanceIT := rfl
@[simp] theorem State.setParams_other (s : State) (x : Params) : (s.setParams x).other = s.other := rfl
@[simp] theorem State.setParams_text (s : State) (x : Params) : (s.setParams x).text = s.text := rfl
@[simp] theorem State.setParams_params (s : State) (x : Params) : (s.setParams x).params = x := rfl

/-! ### An update by the value a state already holds -/

@[simp] theorem State.setPC_self (s : State) : s.setPC s.pc = s := rfl
@[simp] theorem State.setIT_self (s : State) : s.setIT s.it = s := rfl
@[simp] theorem State.setFlags_self (s : State) : s.setFlags s.flags = s := rfl
@[simp] theorem State.setShouldAdvanceIT_self (s : State) : s.setShouldAdvanceIT s.shouldAdvanceIT = s := rfl
@[simp] theorem State.setOther_self (s : State) : s.setOther s.other = s := rfl
@[simp] theorem State.setText_self (s : State) : s.setText s.text = s := rfl
@[simp] theorem State.setParams_self (s : State) : s.setParams s.params = s := rfl

/-- Two states with the same fields are the same. -/
theorem State.eq_of_fields {s t : State} (hpc : t.pc = s.pc) (hit : t.it = s.it) (hflags : t.flags = s.flags)
    (hadv : t.shouldAdvanceIT = s.shouldAdvanceIT) (hother : t.other = s.other) (htext : t.text = s.text)
    (hparams : t.params = s.params) : t = s := by
  cases s; cases t; simp_all

end Sys2Proof.Machine
end

