-- ==== Sys2Proof/Laws/Ops.lean ====
section
/-! SUPPORT. For each shared operation one lemma that says everything it can answer; the proofs cite these and do not unfold
the operations. -/

namespace Sys2Proof.Machine

/-! ### The pc and the fetch after it -/

theorem advancePC_next {len : Nat} {s t : State} (h : advancePC len s = .next t) :
    s.pc.toNat + len < 2 ^ 32 ∧ t = s.setPC (s.pc + BitVec.ofNat 32 len) := by
  simp only [advancePC] at h
  split at h
  · cases h; exact ⟨by assumption, rfl⟩
  · cases h

theorem advancePC_of_fits {len : Nat} {s : State} (h : s.pc.toNat + len < 2 ^ 32) :
    advancePC len s = .next (s.setPC (s.pc + BitVec.ofNat 32 len)) := if_pos h

theorem advancePC_refused {len : Nat} {s : State} {r : Refusal} (h : advancePC len s = .refused r) :
    r = .pcWrap ∧ ¬ s.pc.toNat + len < 2 ^ 32 := by
  simp only [advancePC] at h
  split at h
  · cases h
  · cases h; exact ⟨rfl, by assumption⟩

theorem advancePC_ne_fault {len : Nat} {s : State} {f : Fault} : advancePC len s ≠ .fault f := by
  simp only [advancePC]
  split <;> simp

/-- An even pc advanced by an even length is even. -/
theorem even_add {a : Addr} {len : Nat} (ha : a.getLsbD 0 = false) (hlen : len % 2 = 0) :
    (a + BitVec.ofNat 32 len).getLsbD 0 = false := by
  simp only [BitVec.getLsbD, Nat.testBit_zero, decide_eq_false_iff_not, BitVec.toNat_add, BitVec.toNat_ofNat] at ha ⊢
  omega

theorem instrLength_even (hw : Half) : instrLength hw % 2 = 0 := by
  simp only [instrLength]; split <;> rfl

theorem targetAddr_even (t : BitVec 31) : (targetAddr t).getLsbD 0 = false := by
  simp only [targetAddr, BitVec.getLsbD_append]
  rfl

/-! ### `CheckITEnabled` -/

/-- Everything `checkITEnabled` can answer (R86). -/
theorem checkITEnabled_cases (mask : Mask) (hw : Half) (s : State) :
    (checkITEnabled mask hw s = .passes ∧
        (s.params.itd = false ∨
          (mask = 0b1000#4 ∧ ∃ next, fetchAfter 2 s = .ok next ∧ itdForbids next = false))) ∨
      (checkITEnabled mask hw s = .stops (.fault (.undefined (.itDisabled s.pc hw))) ∧ s.params.itd = true ∧
        (mask ≠ 0b1000#4 ∨ ∃ next, fetchAfter 2 s = .ok next ∧ itdForbids next = true)) ∨
      (∃ r, checkITEnabled mask hw s = .stops (.refused r) ∧ s.params.itd = true ∧ mask = 0b1000#4 ∧
        fetchAfter 2 s = .error r) := by
  cases hitd : s.params.itd with
  | false => exact .inl ⟨by simp [checkITEnabled, hitd], .inl rfl⟩
  | true =>
    by_cases hm : mask = 0b1000#4
    · cases hf : fetchAfter 2 s with
      | error r => exact .inr (.inr ⟨r, by simp [checkITEnabled, hitd, hm, hf], rfl, hm, rfl⟩)
      | ok next =>
        cases hn : itdForbids next with
        | true => exact .inr (.inl ⟨by simp [checkITEnabled, hitd, hm, hf, hn, raiseUndefined], rfl, .inr ⟨next, rfl, hn⟩⟩)
        | false => exact .inl ⟨by simp [checkITEnabled, hitd, hm, hf, hn], .inr ⟨hm, next, rfl, hn⟩⟩
    · exact .inr (.inl ⟨by simp [checkITEnabled, hitd, hm, raiseUndefined], rfl, .inl hm⟩)

/-! ### The slots, which depend on the text and the parameters alone -/

@[simp] theorem State.setPC_itSlots (s : State) (x : Addr) : (s.setPC x).itSlots = s.itSlots := rfl
@[simp] theorem State.setIT_itSlots (s : State) (x : ITBits) : (s.setIT x).itSlots = s.itSlots := rfl
@[simp] theorem State.setFlags_itSlots (s : State) (x : Flags) : (s.setFlags x).itSlots = s.itSlots := rfl
@[simp] theorem State.setShouldAdvanceIT_itSlots (s : State) (x : Bool) : (s.setShouldAdvanceIT x).itSlots = s.itSlots := rfl
@[simp] theorem State.setOther_itSlots (s : State) (x : List Word) : (s.setOther x).itSlots = s.itSlots := rfl

/-- The `IT`s whose block counts (R83, R86): the condition good or executed, and the check not stopping them. -/
theorem setsBlock_iff (p : Params) (m : Memory) (a : Addr) (hw : Half) :
    setsBlock p m a hw = true ↔
      isIT hw = true ∧ (badCondition (firstcondOf hw) (maskField hw) = false ∨ p.cuIT = .execute) ∧
        a.toNat + 2 < 2 ^ 32 ∧
        (p.itd = false ∨
          (maskField hw = 0b1000#4 ∧ ∃ next, fetch16 m (a + 2#32) = .ok next ∧ itdForbids next = false)) := by
  have hs : setsBlock p m a hw = (isIT hw &&
      (!badCondition (firstcondOf hw) (maskField hw) || p.cuIT == .execute) && decide (a.toNat + 2 < 2 ^ 32) &&
      match checkITEnabled (maskField hw) hw { State.reset with pc := a, text := m, params := p } with
      | .passes => true
      | .stops _ => false) := rfl
  have hf : ∀ h : a.toNat + 2 < 2 ^ 32,
      fetchAfter 2 { State.reset with pc := a, text := m, params := p } = fetch16 m (a + 2#32) := fun h => if_pos h
  rw [hs]
  simp only [Bool.and_eq_true, Bool.or_eq_true, Bool.not_eq_true', beq_iff_eq, decide_eq_true_eq, and_assoc]
  refine and_congr_right fun _ => and_congr_right fun _ => and_congr_right fun ha => ?_
  obtain ⟨h, hc⟩ | ⟨h, hi, hc⟩ | ⟨r, h, hi, hm, hr⟩ :=
    checkITEnabled_cases (maskField hw) hw { State.reset with pc := a, text := m, params := p }
  · rw [hf ha] at hc
    simpa only [h, true_iff] using hc
  · rw [hf ha] at hc
    simp only [h, Bool.false_eq_true, false_iff, not_or, not_and, not_exists]
    refine ⟨by rw [show p.itd = true from hi]; simp, fun hm next hn => ?_⟩
    obtain hm' | ⟨next', hn', ht⟩ := hc
    · exact absurd hm hm'
    · rw [hn] at hn'; cases hn'; simp [ht]
  · rw [hf ha] at hr
    simp only [h, Bool.false_eq_true, false_iff, not_or, not_and, not_exists]
    exact ⟨by rw [show p.itd = true from hi]; simp, fun _ next hn => by rw [hr] at hn; cases hn⟩

/-- The slots of the block of an `IT` that has one (R100). -/
theorem blockSlots_of_setsBlock {p : Params} {m : Memory} {a : Addr} {hw : Half} (hf : fetch16 m a = .ok hw)
    (hs : setsBlock p m a hw = true) : blockSlots p m a = lineOf m (blockLength (maskField hw)) (a + 2#32) := by
  simp [blockSlots, hf, hs]

/-- A slot is a slot of an `IT` that stands at an address of the list and sets ITSTATE. -/
theorem mem_blockSlots {p : Params} {m : Memory} {a b : Addr} (h : b ∈ blockSlots p m a) :
    ∃ hw, fetch16 m a = .ok hw ∧ setsBlock p m a hw = true ∧ b ∈ lineOf m (blockLength (maskField hw)) (a + 2#32) := by
  simp only [blockSlots] at h
  split at h
  · rename_i hw hf
    split at h
    · exact ⟨hw, hf, by assumption, h⟩
    · cases h
  · cases h

/-! ### The instructions that are not `IT` -/

/-- `secondHalf` on a 16-bit instruction (R62). -/
theorem secondHalf_narrow {hw : Half} (s : State) (h : isWide hw = false) : secondHalf hw s = .ok none := by
  simp [secondHalf, h]

theorem secondHalf_error {hw : Half} {s : State} {r : Refusal} (h : secondHalf hw s = .error r) :
    isWide hw = true ∧ fetchAfter 2 s = .error r := by
  simp only [secondHalf] at h
  split at h
  · rename_i hw'
    split at h
    · cases h
    · rename_i r' hf; cases h; exact ⟨hw', hf⟩
  · cases h

/-- Everything `otherEffect` can answer (R41, R115). -/
theorem otherEffect_cases (hw : Half) (passed : Bool) (s : State) :
    (∃ hw2 e, secondHalf hw s = .ok hw2 ∧ pOtherInstr hw passed hw2 s = some e ∧ otherEffect hw passed s = .ok e) ∨
      (∃ hw2, secondHalf hw s = .ok hw2 ∧ pOtherInstr hw passed hw2 s = none ∧
        otherEffect hw passed s = .error (.notInSpec hw)) ∨
      (∃ r, secondHalf hw s = .error r ∧ otherEffect hw passed s = .error r) := by
  cases hs : secondHalf hw s with
  | error r => exact .inr (.inr ⟨r, rfl, by simp [otherEffect, hs]⟩)
  | ok hw2 =>
    cases hp : pOtherInstr hw passed hw2 s with
    | some e => exact .inl ⟨hw2, e, rfl, hp, by simp [otherEffect, hs, hp]⟩
    | none => exact .inr (.inl ⟨hw2, rfl, hp, by simp [otherEffect, hs, hp]⟩)

/-- `P_OtherInstr` answers for no `IT`, and under `NOP` alone for `0xBF00` alone, with no effect (R115). -/
theorem pOtherInstr_some {hw : Half} {passed : Bool} {hw2 : Option Half} {s : State} {e : OtherEffect}
    (h : pOtherInstr hw passed hw2 s = some e) :
    isIT hw = false ∧
      ((s.params.otherInstr = .nop ∧ hw = 0xBF00#16 ∧ e = nopEffect s) ∨
        (s.params.otherInstr = .user ∧ Config.otherInstr hw (otherView hw2 s) passed = some e)) := by
  simp only [pOtherInstr] at h
  split at h
  · cases h
  · rename_i hi
    refine ⟨by simpa using hi, ?_⟩
    split at h
    · cases h
    · rename_i ho
      split at h
      · rename_i hb; cases h; exact .inl ⟨ho, by simpa using hb, rfl⟩
      · cases h
    · rename_i ho; exact .inr ⟨ho, h⟩

theorem applyData_frame (hw : Half) (e : OtherEffect) (s : State) :
    (applyData hw e s).pc = s.pc ∧ (applyData hw e s).it = s.it ∧
      (applyData hw e s).shouldAdvanceIT = s.shouldAdvanceIT ∧ (applyData hw e s).text = s.text ∧
      (applyData hw e s).params = s.params :=
  ⟨rfl, rfl, rfl, rfl, rfl⟩

/-- `NOP` advances the pc and does nothing else, whether its condition holds or not (R115). -/
theorem applyOther_nop (hw : Half) (passed : Bool) (s : State) :
    applyOther hw passed (nopEffect s) s = advancePC (instrLength hw) s := by
  cases passed with
  | false => rfl
  | true =>
    have h : applyData hw (nopEffect s) s = s := by simp [applyData, nopEffect, flagsAfter]
    show advancePC (instrLength hw) (applyData hw (nopEffect s) s) = _
    rw [h]

/-- Everything a next state of `applyOther` can be (R108, R109, R112, R115). -/
theorem applyOther_next {hw : Half} {passed : Bool} {e : OtherEffect} {s t : State}
    (h : applyOther hw passed e s = .next t) :
    (passed = false ∧ s.pc.toNat + instrLength hw < 2 ^ 32 ∧
        t = s.setPC (s.pc + BitVec.ofNat 32 (instrLength hw))) ∨
      (passed = true ∧ e.target = none ∧ s.pc.toNat + instrLength hw < 2 ^ 32 ∧
        t = (applyData hw e s).setPC (s.pc + BitVec.ofNat 32 (instrLength hw))) ∨
      (∃ g, passed = true ∧ e.target = some g ∧ targetAddr g ∉ s.itSlots ∧
        t = (applyData hw e s).setPC (targetAddr g)) := by
  cases passed with
  | false => exact .inl ⟨rfl, advancePC_next h⟩
  | true =>
    simp only [applyOther, Bool.not_true, Bool.false_eq_true, if_false] at h
    split at h
    · rename_i ht
      exact .inr (.inl ⟨rfl, ht, advancePC_next h⟩)
    · rename_i g ht
      split at h
      · cases h
      · rename_i hs
        cases h
        exact .inr (.inr ⟨g, rfl, ht, by simpa using hs, rfl⟩)

/-- What `applyOther` never writes (R115 (a)). -/
theorem applyOther_frame {hw : Half} {passed : Bool} {e : OtherEffect} {s t : State}
    (h : applyOther hw passed e s = .next t) :
    t.it = s.it ∧ t.shouldAdvanceIT = s.shouldAdvanceIT ∧ t.text = s.text ∧ t.params = s.params := by
  obtain ⟨-, -, rfl⟩ | ⟨-, -, -, rfl⟩ | ⟨g, -, -, -, rfl⟩ := applyOther_next h <;> exact ⟨rfl, rfl, rfl, rfl⟩

/-- Everything a next state of `otherInstr` can be (R102, R105, R115). -/
theorem otherInstr_next {hw : Half} {s t : State} (h : otherInstr hw s = .next t) :
    ∃ cond e, currentCond s.it = some cond ∧ otherEffect hw (conditionHolds cond s.flags) s = .ok e ∧
      applyOther hw (conditionHolds cond s.flags) e s = .next t := by
  simp only [otherInstr] at h
  split at h
  · cases h
  · rename_i cond hc
    split at h
    · cases h
    · rename_i e he
      exact ⟨cond, e, hc, he, h⟩

/-- The fault `applyOther` can end in (R112). -/
theorem applyOther_fault {hw : Half} {passed : Bool} {e : OtherEffect} {s : State} {f : Fault}
    (h : applyOther hw passed e s = .fault f) :
    ∃ g, passed = true ∧ e.target = some g ∧ targetAddr g ∈ s.itSlots ∧
      f = .unpredictable (.branchIntoITBlock s.pc (targetAddr g)) := by
  cases passed with
  | false => exact (advancePC_ne_fault h).elim
  | true =>
    simp only [applyOther, Bool.not_true, Bool.false_eq_true, if_false] at h
    split at h
    · exact (advancePC_ne_fault h).elim
    · rename_i g hg
      split at h
      · rename_i hs; cases h; exact ⟨g, rfl, hg, by simpa using hs, rfl⟩
      · cases h

/-- The refusal `applyOther` can end in (R22). -/
theorem applyOther_refused {hw : Half} {passed : Bool} {e : OtherEffect} {s : State} {r : Refusal}
    (h : applyOther hw passed e s = .refused r) : r = .pcWrap ∧ ¬ s.pc.toNat + instrLength hw < 2 ^ 32 := by
  cases passed with
  | false => exact advancePC_refused h
  | true =>
    simp only [applyOther, Bool.not_true, Bool.false_eq_true, if_false] at h
    split at h
    · exact advancePC_refused (s := applyData hw e s) h
    · split at h <;> cases h

/-- Everything a fault of `otherInstr` can be (R105, R112). -/
theorem otherInstr_fault {hw : Half} {s : State} {f : Fault} (h : otherInstr hw s = .fault f) :
    (currentCond s.it = none ∧ f = .unpredictable (.inconsistentITSTATE s.pc s.it)) ∨
      (∃ cond hw2 e g, currentCond s.it = some cond ∧ conditionHolds cond s.flags = true ∧
        secondHalf hw s = .ok hw2 ∧ pOtherInstr hw true hw2 s = some e ∧ e.target = some g ∧
        targetAddr g ∈ s.itSlots ∧ f = .unpredictable (.branchIntoITBlock s.pc (targetAddr g))) := by
  simp only [otherInstr] at h
  split at h
  · cases h; exact .inl ⟨by assumption, rfl⟩
  · rename_i cond hc
    obtain ⟨hw2, e, hs, hp, he⟩ | ⟨hw2, -, -, he⟩ | ⟨r, -, he⟩ := otherEffect_cases hw (conditionHolds cond s.flags) s <;>
      simp only [he] at h
    · obtain ⟨g, hh, hg, hm, rfl⟩ := applyOther_fault h
      exact .inr ⟨cond, hw2, e, g, hc, hh, hs, hh ▸ hp, hg, hm, rfl⟩
    · cases h
    · cases h

/-- Everything a refusal of `otherInstr` can be (R22, R41, R115). -/
theorem otherInstr_refused {hw : Half} {s : State} {r : Refusal} (h : otherInstr hw s = .refused r) :
    (isWide hw = true ∧ fetchAfter 2 s = .error r) ∨
      (∃ cond hw2, currentCond s.it = some cond ∧ secondHalf hw s = .ok hw2 ∧
        pOtherInstr hw (conditionHolds cond s.flags) hw2 s = none ∧ r = .notInSpec hw) ∨
      (r = .pcWrap ∧ ¬ s.pc.toNat + instrLength hw < 2 ^ 32) := by
  simp only [otherInstr] at h
  split at h
  · cases h
  · rename_i cond hc
    obtain ⟨hw2, e, -, -, he⟩ | ⟨hw2, hs, hp, he⟩ | ⟨r', hs, he⟩ := otherEffect_cases hw (conditionHolds cond s.flags) s <;>
      simp only [he] at h
    · exact .inr (.inr (applyOther_refused h))
    · cases h; exact .inr (.inl ⟨cond, hw2, hc, hs, hp, rfl⟩)
    · cases h; exact .inl (secondHalf_error hs)

theorem otherInstr_frame {hw : Half} {s t : State} (h : otherInstr hw s = .next t) :
    t.it = s.it ∧ t.shouldAdvanceIT = s.shouldAdvanceIT ∧ t.text = s.text ∧ t.params = s.params := by
  obtain ⟨_, _, -, -, h'⟩ := otherInstr_next h
  exact applyOther_frame h'

/-- An instruction that is not `IT` keeps the pc aligned (R115 (c)). -/
theorem otherInstr_even {hw : Half} {s t : State} (h : otherInstr hw s = .next t) (hpc : s.pc.getLsbD 0 = false) :
    t.pc.getLsbD 0 = false := by
  obtain ⟨_, _, -, -, h'⟩ := otherInstr_next h
  obtain ⟨-, -, rfl⟩ | ⟨-, -, -, rfl⟩ | ⟨g, -, -, -, rfl⟩ := applyOther_next h'
  · exact even_add hpc (instrLength_even hw)
  · exact even_add hpc (instrLength_even hw)
  · exact targetAddr_even g

/-! ### The skeleton of a step -/

/-- What has been tested when a halfword is to be executed (R102). -/
theorem beginStep_fetched {s s1 : State} {hw : Half} (h : beginStep s = .fetched hw s1) :
    inconsistentIT s.it = false ∧ s.pc ≠ s.params.endAddr ∧ fetch16 s.text s.pc = .ok hw ∧
      s1 = s.setShouldAdvanceIT true := by
  simp only [beginStep] at h
  split at h
  · cases h
  · rename_i hc
    split at h
    · split at h <;> cases h
    · rename_i hp
      split at h
      · cases h
      · rename_i hf
        cases h
        exact ⟨by simpa using hc, by simpa using hp, hf, rfl⟩

/-- The ways a step can be over before an instruction is executed (R102, R144). -/
theorem beginStep_done {s : State} {o : Host.Outcome State Fault Refusal} (h : beginStep s = .done o) :
    (o = .fault (.unpredictable (.inconsistentITSTATE s.pc s.it)) ∧ inconsistentIT s.it = true) ∨
      (o = .next s ∧ isFinal s = true) ∨
      (o = .refused .endInsideITBlock ∧ s.pc = s.params.endAddr ∧ inITBlock s.it = true) ∨
      (∃ r, o = .refused r ∧ fetch16 s.text s.pc = .error r ∧ s.pc ≠ s.params.endAddr ∧
        inconsistentIT s.it = false) := by
  simp only [beginStep] at h
  split at h
  · cases h; exact .inl ⟨rfl, by assumption⟩
  · rename_i hc
    split at h
    · rename_i hp
      split at h
      · rename_i hz; cases h; exact .inr (.inl ⟨rfl, by simp_all [isFinal]⟩)
      · rename_i hz
        cases h
        refine .inr (.inr (.inl ⟨rfl, by simpa using hp, ?_⟩))
        simp only [inITBlock, inconsistentIT, Bool.and_eq_true, not_and, beq_iff_eq, bne_iff_ne, ne_eq, not_not] at hc hz ⊢
        intro hm
        apply hz
        have hi := hc hm
        simp only [itMask, itCond] at hm hi
        have hall : ∀ b : BitVec 8, b.extractLsb' 0 4 = 0#4 → b.extractLsb' 4 4 = 0#4 → b = 0#8 := by decide
        exact hall _ hm hi
    · rename_i hp
      split at h
      · rename_i r hf
        cases h
        exact .inr (.inr (.inr ⟨r, rfl, hf, by simpa using hp, by simpa using hc⟩))
      · cases h

theorem beginStep_of_fetched {s : State} {hw : Half} (hc : inconsistentIT s.it = false) (hp : s.pc ≠ s.params.endAddr)
    (hf : fetch16 s.text s.pc = .ok hw) : beginStep s = .fetched hw (s.setShouldAdvanceIT true) := by
  simp [beginStep, hc, hp, hf]

theorem endStep_next {o : Host.Outcome State Fault Refusal} {t : State} (h : endStep o = .next t) :
    ∃ u, o = .next u ∧ t = advanceIfDue u := by
  cases o with
  | next u => cases h; exact ⟨u, rfl, rfl⟩
  | fault f => cases h
  | refused r => cases h

theorem endStep_fault {o : Host.Outcome State Fault Refusal} {f : Fault} (h : endStep o = .fault f) : o = .fault f := by
  cases o <;> simp_all [endStep]

theorem endStep_refused {o : Host.Outcome State Fault Refusal} {r : Refusal} (h : endStep o = .refused r) :
    o = .refused r := by
  cases o <;> simp_all [endStep]

/-- What the end of a step never writes (R107 writes `PSTATE.IT` alone). -/
theorem advanceIfDue_frame (s : State) :
    (advanceIfDue s).pc = s.pc ∧ (advanceIfDue s).flags = s.flags ∧ (advanceIfDue s).other = s.other ∧
      (advanceIfDue s).text = s.text ∧ (advanceIfDue s).params = s.params ∧
      (advanceIfDue s).shouldAdvanceIT = s.shouldAdvanceIT := by
  simp only [advanceIfDue]
  split <;> exact ⟨rfl, rfl, rfl, rfl, rfl, rfl⟩

end Sys2Proof.Machine
end

