-- ==== Sys2Proof/Laws/Exec.lean ====
section
/-! SUPPORT. What the meanings and the step can answer, once for all proofs. -/

namespace Sys2Proof.Machine

/-- The two ways `executeIT` ends (R80): the check stops it, or it has its effect and the pc advances. -/
theorem executeIT_cases (firstcond : Cond) (mask : Mask) (s : State) :
    (∃ o, checkITEnabled mask (itHalf firstcond mask) s = .stops o ∧ executeIT firstcond mask s = o) ∨
      (checkITEnabled mask (itHalf firstcond mask) s = .passes ∧
        executeIT firstcond mask s =
          advancePC 2 ((s.setIT (itOperand firstcond mask)).setShouldAdvanceIT false)) := by
  cases h : checkITEnabled mask (itHalf firstcond mask) s with
  | stops o => exact .inl ⟨o, rfl, by simp [executeIT, h]⟩
  | passes => exact .inr ⟨rfl, by simp [executeIT, h]⟩

theorem executeIT_next {firstcond : Cond} {mask : Mask} {s t : State} (h : executeIT firstcond mask s = .next t) :
    s.pc.toNat + 2 < 2 ^ 32 ∧
      t = ((s.setIT (itOperand firstcond mask)).setShouldAdvanceIT false).setPC (s.pc + 2#32) := by
  obtain ⟨o, hs, ho⟩ | ⟨-, he⟩ := executeIT_cases firstcond mask s
  · rw [ho] at h
    subst h
    obtain ⟨hp, -⟩ | ⟨hp, -⟩ | ⟨r, hp, -⟩ := checkITEnabled_cases mask (itHalf firstcond mask) s <;>
      rw [hp] at hs <;> cases hs
  · rw [he] at h
    exact advancePC_next h

/-- Everything a next state of `IT` can be (R80, R83): the NOP of a bad condition, or the Execute lines. -/
theorem execIT_next {firstcond : Cond} {mask : Mask} {s t : State} (hm : mask ≠ 0#4)
    (h : execIT firstcond mask s = .next t) :
    inITBlock s.it = false ∧ s.pc.toNat + 2 < 2 ^ 32 ∧
      ((badCondition firstcond mask = true ∧ s.params.cuIT = .nop ∧ t = s.setPC (s.pc + 2#32)) ∨
        ((badCondition firstcond mask = false ∨ s.params.cuIT = .execute) ∧
          t = ((s.setIT (itOperand firstcond mask)).setShouldAdvanceIT false).setPC (s.pc + 2#32))) := by
  simp only [execIT, beq_iff_eq, hm, if_false] at h
  split at h
  · cases h
  · rename_i hin
    refine ⟨by simpa using hin, ?_⟩
    split at h
    · rename_i hbad
      split at h
      · cases h
      · cases h
      · rename_i hcu
        exact ⟨(advancePC_next h).1, .inl ⟨hbad, hcu, (advancePC_next h).2⟩⟩
      · rename_i hcu
        exact ⟨(executeIT_next h).1, .inr ⟨.inr hcu, (executeIT_next h).2⟩⟩
    · rename_i hbad
      exact ⟨(executeIT_next h).1, .inr ⟨.inl (by simpa using hbad), (executeIT_next h).2⟩⟩

/-- Everything a fault of `IT` can be, in the order of the tests (R92). -/
theorem execIT_fault {firstcond : Cond} {mask : Mask} {s : State} {f : Fault} (hm : mask ≠ 0#4)
    (h : execIT firstcond mask s = .fault f) :
    (inITBlock s.it = true ∧ f = .unpredictable (.itInsideITBlock s.pc (itHalf firstcond mask))) ∨
      (inITBlock s.it = false ∧ badCondition firstcond mask = true ∧ s.params.cuIT = .fault ∧
        f = .unpredictable (.itBadCondition s.pc (itHalf firstcond mask))) ∨
      (inITBlock s.it = false ∧ badCondition firstcond mask = true ∧ s.params.cuIT = .undef ∧
        f = .undefined (.itBadCondition s.pc (itHalf firstcond mask))) ∨
      (inITBlock s.it = false ∧ (badCondition firstcond mask = false ∨ s.params.cuIT = .execute) ∧ s.params.itd = true ∧
        (mask ≠ 0b1000#4 ∨ ∃ next, fetchAfter 2 s = .ok next ∧ itdForbids next = true) ∧
        f = .undefined (.itDisabled s.pc (itHalf firstcond mask))) := by
  have hx : executeIT firstcond mask s = .fault f → s.params.itd = true ∧
      (mask ≠ 0b1000#4 ∨ ∃ next, fetchAfter 2 s = .ok next ∧ itdForbids next = true) ∧
      f = .undefined (.itDisabled s.pc (itHalf firstcond mask)) := by
    intro h
    obtain ⟨o, hs, ho⟩ | ⟨-, he⟩ := executeIT_cases firstcond mask s
    · rw [ho] at h
      subst h
      obtain ⟨hp, -⟩ | ⟨hp, hi, hc⟩ | ⟨r, hp, -⟩ := checkITEnabled_cases mask (itHalf firstcond mask) s <;>
        rw [hp] at hs <;> cases hs
      exact ⟨hi, hc, rfl⟩
    · rw [he] at h
      exact (advancePC_ne_fault h).elim
  simp only [execIT, beq_iff_eq, hm, if_false] at h
  split at h
  · cases h; exact .inl ⟨by assumption, rfl⟩
  · rename_i hin
    have hin : inITBlock s.it = false := by simpa using hin
    split at h
    · rename_i hb
      split at h
      · cases h; exact .inr (.inl ⟨hin, hb, by assumption, rfl⟩)
      · cases h; exact .inr (.inr (.inl ⟨hin, hb, by assumption, rfl⟩))
      · exact (advancePC_ne_fault h).elim
      · exact .inr (.inr (.inr ⟨hin, .inr (by assumption), hx h⟩))
    · rename_i hb
      exact .inr (.inr (.inr ⟨hin, .inl (by simpa using hb), hx h⟩))

/-- Everything a refusal of `IT` can be (R22, R86, R92). -/
theorem execIT_refused {firstcond : Cond} {mask : Mask} {s : State} {r : Refusal} (hm : mask ≠ 0#4)
    (h : execIT firstcond mask s = .refused r) :
    (r = .pcWrap ∧ ¬ s.pc.toNat + 2 < 2 ^ 32) ∨
      (s.params.itd = true ∧ mask = 0b1000#4 ∧ fetchAfter 2 s = .error r) := by
  have hx : executeIT firstcond mask s = .refused r → (r = .pcWrap ∧ ¬ s.pc.toNat + 2 < 2 ^ 32) ∨
      (s.params.itd = true ∧ mask = 0b1000#4 ∧ fetchAfter 2 s = .error r) := by
    intro h
    obtain ⟨o, hs, ho⟩ | ⟨-, he⟩ := executeIT_cases firstcond mask s
    · rw [ho] at h
      subst h
      obtain ⟨hp, -⟩ | ⟨hp, -⟩ | ⟨r', hp, hi, hm', hr⟩ := checkITEnabled_cases mask (itHalf firstcond mask) s <;>
        rw [hp] at hs <;> cases hs
      exact .inr ⟨hi, hm', hr⟩
    · rw [he] at h
      exact .inl (advancePC_refused (s := (s.setIT (itOperand firstcond mask)).setShouldAdvanceIT false) h)
  simp only [execIT, beq_iff_eq, hm, if_false] at h
  split at h
  · cases h
  · split at h
    · split at h
      · cases h
      · cases h
      · exact .inl (advancePC_refused h)
      · exact hx h
    · exact hx h

/-- A halfword is its three fields (R60). -/
theorem half_split (hw : Half) : hw = (opcodeOf hw ++ firstcondOf hw) ++ maskField hw := by
  ext i hi
  simp only [opcodeOf, firstcondOf, maskField, ← BitVec.getLsbD_eq_getElem, BitVec.getLsbD_append,
    BitVec.getLsbD_extractLsb']
  by_cases h4 : i < 4
  · simp [h4]
  · by_cases h8 : i - 4 < 4
    · simp [h4, h8, show 4 + (i - 4) = i by omega]
    · simp [h4, h8, show 8 + (i - 4 - 4) = i by omega, show i - 4 - 4 < 8 by omega]

/-- The halfword of an `IT` is put together again from its fields (R60, R61). -/
theorem itHalf_of_isIT {hw : Half} (h : isIT hw = true) : itHalf (firstcondOf hw) (maskField hw) = hw := by
  have hsplit := half_split hw
  simp only [isIT, Bool.and_eq_true, beq_iff_eq] at h
  rw [h.1] at hsplit
  exact hsplit.symm

/-- The rows the decoder answers for a halfword (R61, R63). -/
theorem decodeHalf_cases (hw : Half) :
    (decodeHalf hw = .ok (.it (firstcondOf hw) (maskField hw)) ∧ isIT hw = true ∧ maskField hw ≠ 0#4) ∨
      (decodeHalf hw = .ok (.misc16 (firstcondOf hw)) ∧ isIT hw = false ∧ hw = miscHalf (firstcondOf hw)) ∨
      (∃ e, decodeHalf hw = .error e ∧ isIT hw = false) := by
  by_cases htop : opcodeOf hw = 0xBF#8
  · by_cases hm : maskField hw = 0#4
    · refine .inr (.inl ⟨by simp [decodeHalf, htop, hm], by simp [isIT, hm], ?_⟩)
      have h := half_split hw
      rwa [htop, hm] at h
    · exact .inl ⟨by simp [decodeHalf, htop, hm], by simp [isIT, htop, hm], hm⟩
  · refine .inr (.inr ?_)
    cases hw' : isWide hw with
    | true => exact ⟨.wide hw, by simp [decodeHalf, htop, hw'], by simp [isIT, htop]⟩
    | false => exact ⟨.outsideTable hw, by simp [decodeHalf, htop, hw'], by simp [isIT, htop]⟩

/-- What runs for a fetched halfword (R102): `IT`, or the door to every other instruction. -/
theorem runHalf_cases (hw : Half) (s : State) :
    (isIT hw = true ∧ maskField hw ≠ 0#4 ∧ runHalf hw s = execIT (firstcondOf hw) (maskField hw) s) ∨
      (isIT hw = false ∧ runHalf hw s = otherInstr hw s) := by
  obtain ⟨hd, hi, hm⟩ | ⟨hd, hi, hh⟩ | ⟨e, hd, hi⟩ := decodeHalf_cases hw
  · exact .inl ⟨hi, hm, by simp [runHalf, hd, exec]⟩
  · exact .inr ⟨hi, by simp only [runHalf, hd, exec, execMisc16, ← hh]⟩
  · exact .inr ⟨hi, by simp [runHalf, hd]⟩

/-- Everything a next state of the step can be (R102): a final state that stays, or the state an instruction left with
ITSTATE advanced where it is due. -/
theorem step_next {s t : State} (h : step s = .next t) :
    (t = s ∧ isFinal s = true) ∨
      (∃ hw u, inconsistentIT s.it = false ∧ s.pc ≠ s.params.endAddr ∧ fetch16 s.text s.pc = .ok hw ∧
        runHalf hw (s.setShouldAdvanceIT true) = .next u ∧ t = advanceIfDue u) := by
  simp only [step] at h
  split at h
  · rename_i o hb
    subst h
    obtain ⟨ho, -⟩ | ⟨ho, hfin⟩ | ⟨ho, -⟩ | ⟨r, ho, -⟩ := beginStep_done hb
    · cases ho
    · cases ho; exact .inl ⟨rfl, hfin⟩
    · cases ho
    · cases ho
  · rename_i hw s1 hb
    obtain ⟨hc, hp, hf, rfl⟩ := beginStep_fetched hb
    obtain ⟨u, hu, rfl⟩ := endStep_next h
    exact .inr ⟨hw, u, hc, hp, hf, hu, rfl⟩

end Sys2Proof.Machine
end

