-- ==== Sys2Proof/Laws/PerInstr.lean ====
section
/-! SUPPORT. Statements for all instructions, one lemma per constructor. -/

namespace Sys2Proof.Laws

/-- R60, R62: the instruction is one halfword whose opcode byte is `0xBF`, and that halfword is no first half of a 32-bit
instruction. -/
def OneHalfword.Statement (i : Instr) : Prop :=
  encode i = [encodeHalf i] ∧ opcodeOf (encodeHalf i) = 0xBF#8 ∧ isWide (encodeHalf i) = false

theorem OneHalfword.it (firstcond : Cond) (mask : Mask) : OneHalfword.Statement (.it firstcond mask) := by
  have h : ∀ c m : BitVec 4, opcodeOf (itHalf c m) = 0xBF#8 ∧ isWide (itHalf c m) = false := by decide
  exact ⟨rfl, (h firstcond mask).1, (h firstcond mask).2⟩

theorem OneHalfword.misc16 (x : BitVec 4) : OneHalfword.Statement (.misc16 x) := by
  have h : ∀ c : BitVec 4, opcodeOf (miscHalf c) = 0xBF#8 ∧ isWide (miscHalf c) = false := by decide
  exact ⟨rfl, (h x).1, (h x).2⟩

end Sys2Proof.Laws
end

