-- ==== Sys2Proof/Laws/Run.lean ====
section
/-! SUPPORT. What a run of several steps is, one step at a time; a proof over runs cites these and unfolds neither
Host.Core.run nor the core. -/

namespace Sys2Proof.Machine

/-- A run whose first step completes goes on from the state it leaves. -/
theorem core_run_next {k : Nat} {s u : State} (h : step s = .next u) :
    Host.Core.run Sys2Proof.core (k + 1) s = Host.Core.run Sys2Proof.core k u := by
  have h' : Sys2Proof.core.step s = .next u := h
  simp only [Host.Core.run, h']

/-- A run whose first step faults ends in that fault. -/
theorem core_run_fault {k : Nat} {s : State} {f : Fault} (h : step s = .fault f) :
    Host.Core.run Sys2Proof.core (k + 1) s = .fault f := by
  have h' : Sys2Proof.core.step s = .fault f := h
  simp only [Host.Core.run, h']

/-- A run whose first step is refused ends in that refusal. -/
theorem core_run_refused {k : Nat} {s : State} {r : Refusal} (h : step s = .refused r) :
    Host.Core.run Sys2Proof.core (k + 1) s = .refused r := by
  have h' : Sys2Proof.core.step s = .refused r := h
  simp only [Host.Core.run, h']

/-- A run of one more step ends with that step. -/
theorem core_run_succ (k : Nat) : ∀ s t : State, Host.Core.run Sys2Proof.core (k + 1) s = .next t →
    ∃ u : State, Host.Core.run Sys2Proof.core k s = .next u ∧ step u = .next t := by
  induction k with
  | zero =>
    intro s t h
    refine ⟨s, rfl, ?_⟩
    cases hs : step s with
    | next u => rw [core_run_next hs] at h; exact h
    | fault f => rw [core_run_fault hs] at h; cases h
    | refused r => rw [core_run_refused hs] at h; cases h
  | succ k ih =>
    intro s t h
    cases hs : step s with
    | next u => rw [core_run_next hs] at h ⊢; exact ih u t h
    | fault f => rw [core_run_fault hs] at h; cases h
    | refused r => rw [core_run_refused hs] at h; cases h

end Sys2Proof.Machine
end

