-- ==== Sys2Proof/Tests/Slice0.lean ====
section
/-! SUPPORT. The tests: the well-formedness smoke, the words of the encoding, two tests per instruction with the results of
95_test_vectors.md, a few of its tables, and for every statement with hypotheses a state and operands that meet them all. -/

namespace Sys2Proof.Tests

open Sys2Proof Sys2Proof.Machine

/-! ### Builders -/

def noFlags : Flags := { n := false, z := false, c := false, v := false }
def zFlag : Flags := { n := false, z := true, c := false, v := false }

/-- The parameters of the spec's programs: NOP alone as the other instruction (95_test_vectors.md section 3). -/
def nopParams : Params := { Params.default with otherInstr := .nop }

/-- Halfwords stored from 0x8000 on, the pc at the first. -/
def demo (hws : List Half) (it : ITBits) (f : Flags) (p : Params) : State :=
  { State.reset with
    text := Memory.writeBytes [] 0x8000#32 (hws.flatMap bytesOfHalf), it := it, flags := f, params := p }

theorem demo_room (hws : List Half) (it : ITBits) (f : Flags) (p : Params) : (demo hws it f p).pc.toNat + 2 < 2 ^ 32 := by
  have h : (demo hws it f p).pc = 0x8000#32 := rfl
  rw [h]; decide

theorem eq_next {o : Host.Outcome State Fault Refusal} {t : State} (h : nextOf o = some t) : o = .next t := by
  cases o <;> simp_all [nextOf]

theorem eq_fault {o : Host.Outcome State Fault Refusal} {f : Fault} (h : faultOf o = some f) : o = .fault f := by
  cases o <;> simp_all [faultOf]

theorem eq_refused {o : Host.Outcome State Fault Refusal} {r : Refusal} (h : refusalOf o = some r) : o = .refused r := by
  cases o <;> simp_all [refusalOf]

/-! ### Well-formedness: an ill-formed term for each check -/

theorem test_wf_it_zero_mask : (Instr.it 0b0000#4 0b0000#4).wf = false := by decide
theorem test_wf_it : (Instr.it 0b0000#4 0b0001#4).wf = true := by decide
theorem test_wf_misc : (Instr.misc16 0b1111#4).wf = true := by decide
theorem test_wf_line_four_letters : (AsmLine.mk [.t, .e, .t, .e] .none 0b0000#4).wf = false := by decide

/-! ### Decoding: words written out from the encoding `1011 1111 cccc mmmm` (30_encoding.md; table 2.1 of the vectors) -/

theorem test_decode_ITTE_EQ : decodeHalf 0b1011111100000110#16 = .ok (.it 0b0000#4 0b0110#4) := by decide
theorem test_decode_ITEEE_LE : decodeHalf 0b1011111111010001#16 = .ok (.it 0b1101#4 0b0001#4) := by decide
theorem test_decode_NOP_is_misc : decodeHalf 0b1011111100000000#16 = .ok (.misc16 0b0000#4) := by decide
theorem test_decode_BFF0_is_misc : decodeHalf 0b1011111111110000#16 = .ok (.misc16 0b1111#4) := by decide
theorem test_decode_other_top_bytes :
    decodeHalf 0xBE08#16 = .error (.outsideTable 0xBE08#16) ∧ decodeHalf 0x3F08#16 = .error (.outsideTable 0x3F08#16) ∧
      decodeHalf 0xFF08#16 = .error (.wide 0xFF08#16) := by decide
theorem test_decode_truncated : decode [0x06#8] = .error .truncated := by decide
theorem test_decodeTableWord : decodeTableWord 16 0xBF1C = some (.it 0b0001#4 0b1100#4) := by decide
theorem test_encode_bytes : encodeBytes (.it 0b0000#4 0b0110#4) = [0x06#8, 0xBF#8] := by decide

/-! ### One step of each instruction (vectors 2.3 and programs P1, P8) -/

/-- Vector E3: `ITTE EQ` from `0x8000`. -/
theorem test_step_ITTE_EQ :
    nextOf (step (demo [0xBF06#16] 0x00#8 zFlag Params.default)) =
      some { demo [0xBF06#16] 0x06#8 zFlag Params.default with pc := 0x8002#32, shouldAdvanceIT := false } := by decide

/-- Vector E13: inside a block the `IT` faults although the choice is NOP. -/
theorem test_step_bad_IT_in_block :
    faultOf (step (demo [0xBFF1#16] 0x06#8 noFlags { Params.default with cuIT := .nop })) =
      some (.unpredictable (.itInsideITBlock 0x8000#32 0xBFF1#16)) := by decide

/-- Program P1, step 3: the second NOP of `ITTE EQ`, whose slot advances `0x0C` to `0x18`. -/
theorem test_step_NOP_in_block :
    nextOf (step (demo [0xBF00#16] 0x0C#8 zFlag nopParams)) =
      some { demo [0xBF00#16] 0x18#8 zFlag nopParams with pc := 0x8002#32 } := by decide

/-- Vector E27: under the empty instantiation the halfword is refused. -/
theorem test_step_NOP_empty :
    refusalOf (step (demo [0xBF00#16] 0x06#8 zFlag Params.default)) = some (.notInSpec 0xBF00#16) := by decide

/-- The word the host stores at reset runs as the first instruction. -/
theorem test_fetchWord_at_reset :
    nextOf (step (State.reset.withFetchWord 16 0xBF08)) =
      some { State.reset with
        text := [(0x8000, 0x08#8), (0x8001, 0xBF#8)], pc := 0x8002#32, it := 0x08#8, shouldAdvanceIT := false } := by
  decide

/-! ### Tables of the vectors -/

/-- Section 2.4, rows `0` and `E` (the entries of `E` as the table has them). -/
theorem test_itAdvance_rows :
    ((List.range 16).map fun m => itAdvance (0x0#4 ++ BitVec.ofNat 4 m)) =
        [0x00#8, 0x02#8, 0x04#8, 0x06#8, 0x08#8, 0x0A#8, 0x0C#8, 0x0E#8,
          0x00#8, 0x12#8, 0x14#8, 0x16#8, 0x18#8, 0x1A#8, 0x1C#8, 0x1E#8] ∧
      ((List.range 16).map fun m => itAdvance (0xE#4 ++ BitVec.ofNat 4 m)) =
        [0x00#8, 0xE2#8, 0xE4#8, 0xE6#8, 0xE8#8, 0xEA#8, 0xEC#8, 0xEE#8,
          0x00#8, 0xF2#8, 0xF4#8, 0xF6#8, 0xF8#8, 0xFA#8, 0xFC#8, 0xFE#8] := by decide

/-- Section 2.5: the rows of the signed conditions over `NZCV` from 0000 to 1111, as 16-digit numbers. -/
theorem test_conditionHolds_rows :
    ([0b1000#4, 0b1010#4, 0b1100#4, 0b1101#4].map fun c =>
        (List.range 16).map fun i =>
          conditionHolds c
            { n := i.testBit 3, z := i.testBit 2, c := i.testBit 1, v := i.testBit 0 }) =
      [0b0011000000110000#16, 0b1010101001010101#16, 0b1010000001010000#16, 0b0101111110101111#16].map fun w =>
        (List.range 16).map fun i => w.getLsbD (15 - i) := by decide

/-- Section 2.7: source lines and their halfwords. -/
theorem test_lineHalf :
    lineHalf { letters := [.t, .e], qualifier := .none, cond := 0b1010#4 } = some 0xBFA6#16 ∧
      lineHalf { letters := [.e, .t, .e], qualifier := .none, cond := 0b1001#4 } = some 0xBF95#16 ∧
      lineHalf { letters := [.t, .t, .t], qualifier := .narrow, cond := 0b1110#4 } = some 0xBFE1#16 ∧
      lineHalf { letters := [.e], qualifier := .none, cond := 0b1110#4 } = none := by decide

theorem test_line_text :
    lineText { letters := [.t, .e, .e], qualifier := .none, cond := 0b0111#4 } = some "ITTEE VC" := by decide

/-! ### Witnesses: a state and operands that meet all hypotheses of a statement -/

theorem witness_ITCompletesWithITSTATE :
    (0b0001#4 : Mask) ≠ 0#4 ∧ inITBlock State.reset.it = false ∧ badCondition 0b1101#4 0b0001#4 = false ∧
      State.reset.params.itd = false ∧ State.reset.pc.toNat + 2 < 2 ^ 32 := by decide

theorem witness_ITInsideBlockNeverExecutes :
    (0b1000#4 : Mask) ≠ 0#4 ∧ inITBlock (demo [] 0x18#8 noFlags Params.default).it = true ∧
      inconsistentIT State.reset.it = false ∧
      exec (.it 0b0000#4 0b1000#4) State.reset =
        .next { State.reset with it := 0x08#8, shouldAdvanceIT := false, pc := 0x8002#32 } :=
  ⟨by decide, by decide, by decide, eq_next (by decide)⟩

/-- Each choice has a state; `AL` with an else, and `'1111'` with one instruction, stand at the ends of the condition. -/
theorem witness_BadConditionUnderEachChoice :
    (∀ (c : CUChoice) (d : Bool),
      (demo [] 0#8 noFlags { Params.default with cuIT := c, itd := d }).it = 0#8 ∧
        (demo [] 0#8 noFlags { Params.default with cuIT := c, itd := d }).pc.toNat + 2 < 2 ^ 32 ∧
        (demo [] 0#8 noFlags { Params.default with cuIT := c, itd := d }).params.cuIT = c ∧
        (demo [] 0#8 noFlags { Params.default with cuIT := c, itd := d }).params.itd = d) ∧
      ((0b1110#4 : Cond) = 0b1110#4 ∧ (0b0011#4 : Mask) ≠ 0b1000#4 ∧ (0b0011#4 : Mask) ≠ 0b0100#4 ∧
        (0b0011#4 : Mask) ≠ 0b0010#4 ∧ (0b0011#4 : Mask) ≠ 0b0001#4 ∧ (0b0011#4 : Mask) ≠ 0#4) ∧
      ((0b1111#4 : Cond) = 0b1111#4 ∧ (0b1000#4 : Mask) ≠ 0#4) :=
  ⟨fun _ _ => ⟨rfl, demo_room _ _ _ _, rfl, rfl⟩, by decide, by decide⟩

/-- The clauses under EXECUTE with ITD controls: `0xBFF8` before an allowed, before a listed, and before no halfword. -/
theorem witness_BadConditionUnderITDControls :
    (0b1000#4 : Mask) ≠ 0#4 ∧ maskField 0xBFF8#16 = 0b1000#4 ∧ firstcondOf 0xBFF8#16 = 0b1111#4 ∧
      fetch16 (demo [0xBFF8#16, 0x3001#16] 0#8 noFlags Params.default).text 0x8002#32 = .ok 0x3001#16 ∧
      itdForbids 0x3001#16 = false ∧
      fetch16 (demo [0xBFF8#16, 0xBF00#16] 0#8 noFlags Params.default).text 0x8002#32 = .ok 0xBF00#16 ∧
      itdForbids 0xBF00#16 = true ∧
      (demo [0xBFF8#16] 0#8 noFlags Params.default).pc.getLsbD 0 = false ∧
      (demo [0xBFF8#16] 0#8 noFlags Params.default).text.read 0x8002#32 = none := by decide

/-- `IT EQ` under ITD controls, and the halfword after it. -/
def itdDemo (next : Half) : State := demo [0xBF08#16, next] 0#8 noFlags { Params.default with itd := true }

/-- Halfwords of vectors 2.9 after `IT EQ`: two allowed, then one that only the last pattern forbids and one of the first. -/
theorem witness_ITDControlsDisableListedUses :
    (∀ next, inITBlock (itdDemo next).it = false ∧ (itdDemo next).params.itd = true ∧
        (itdDemo next).pc.toNat + 2 < 2 ^ 32) ∧
      badCondition 0b0000#4 0b1000#4 = false ∧ badCondition 0b0000#4 0b0100#4 = false ∧
      fetch16 (itdDemo 0x4408#16).text 0x8002#32 = .ok 0x4408#16 ∧ itdForbids 0x3001#16 = false ∧
      itdForbids 0x4408#16 = false ∧
      fetch16 (itdDemo 0x4487#16).text 0x8002#32 = .ok 0x4487#16 ∧ itdForbids 0x4487#16 = true ∧
      fetch16 (itdDemo 0xF000#16).text 0x8002#32 = .ok 0xF000#16 ∧ itdForbids 0xF000#16 = true :=
  ⟨fun _ => ⟨rfl, rfl, demo_room _ _ _ _⟩, by decide⟩

/-- The last address an `IT` can stand at, for every choice, with a good condition and a bad one. -/
theorem witness_ITAtTopOfAddressSpace :
    (∀ (c : CUChoice) (d : Bool),
      ({ demo [] 0#8 noFlags { Params.default with cuIT := c, itd := d } with pc := 0xFFFFFFFE#32 } : State).pc =
          0xFFFFFFFE#32 ∧
        inITBlock (demo [] 0#8 noFlags { Params.default with cuIT := c, itd := d }).it = false ∧
        (demo [] 0#8 noFlags { Params.default with cuIT := c, itd := d }).params.cuIT = c ∧
        (demo [] 0#8 noFlags { Params.default with cuIT := c, itd := d }).params.itd = d) ∧
      badCondition 0b0000#4 0b1000#4 = false ∧ badCondition 0b0000#4 0b0100#4 = false ∧
      badCondition 0b1111#4 0b1000#4 = true ∧ badCondition 0b1110#4 0b1100#4 = true := by
  refine ⟨fun c d => ⟨rfl, rfl, rfl, rfl⟩, ?_, ?_, ?_, ?_⟩ <;> decide

theorem witness_ITWritesNothingElse :
    (0b0110#4 : Mask) ≠ 0#4 ∧
      exec (.it 0b0000#4 0b0110#4) (demo [] 0#8 zFlag Params.default) =
        .next { demo [] 0x06#8 zFlag Params.default with pc := 0x8002#32, shouldAdvanceIT := false } :=
  ⟨by decide, eq_next (by decide)⟩

theorem witness_MiscNopCompletes :
    inconsistentIT (demo [] 0x06#8 noFlags nopParams).it = false ∧
      (demo [] 0x06#8 noFlags nopParams).params.otherInstr = .nop ∧
      (demo [] 0x06#8 noFlags nopParams).pc.toNat + 2 < 2 ^ 32 := by decide

theorem witness_MiscRefusedWithoutMeaning :
    inconsistentIT State.reset.it = false ∧ State.reset.params.otherInstr = .empty ∧
      inconsistentIT (demo [] 0#8 noFlags nopParams).it = false ∧
      (demo [] 0#8 noFlags nopParams).params.otherInstr = .nop ∧ (0b0001#4 : BitVec 4) ≠ 0#4 := by decide

theorem witness_MiscFollowsUserInstantiation :
    currentCond (demo [] 0x18#8 noFlags { Params.default with otherInstr := .user }).it = some 0b0001#4 ∧
      (demo [] 0x18#8 noFlags { Params.default with otherInstr := .user }).params.otherInstr = .user := by decide

/-- The slot `EQ` fails with `Z = 0`; the `NOP` completes all the same. -/
theorem witness_MiscFrame :
    exec (.misc16 0#4) (demo [] 0x08#8 noFlags nopParams) =
        .next { demo [] 0x08#8 noFlags nopParams with pc := 0x8002#32 } ∧
      currentCond 0x08#8 = some 0b0000#4 ∧ conditionHolds 0b0000#4 noFlags = false :=
  ⟨eq_next (by decide), by decide, by decide⟩

/-- An effect that sets every flag, of a plain instruction or of a comparison. -/
def setsFlags (comparison : Bool) : OtherEffect :=
  { flags := { n := true, z := true, c := true, v := true }, other := [], target := none, comparison := comparison }

/-- A 16-bit instruction that keeps the flags, a comparison that sets them, and a 32-bit one that sets them, all in a block. -/
theorem witness_SixteenBitInstructionsKeepFlagsInBlock :
    inITBlock (demo [] 0x18#8 noFlags Params.default).it = true ∧ isWide 0x3001#16 = false ∧ isWide 0xF000#16 = true ∧
      applyOther 0x3001#16 true (setsFlags false) (demo [] 0x18#8 noFlags Params.default) =
        .next { demo [] 0x18#8 noFlags Params.default with pc := 0x8002#32 } ∧
      applyOther 0x3001#16 true (setsFlags true) (demo [] 0x18#8 noFlags Params.default) =
        .next { demo [] 0x18#8 (setsFlags true).flags Params.default with pc := 0x8002#32 } ∧
      applyOther 0xF000#16 true (setsFlags false) (demo [] 0x18#8 noFlags Params.default) =
        .next { demo [] 0x18#8 (setsFlags true).flags Params.default with pc := 0x8004#32 } :=
  ⟨by decide, by decide, by decide, eq_next (by decide), eq_next (by decide), eq_next (by decide)⟩

/-- Program P1's first block: `ITTE EQ` at 0x8000, listed, and three NOPs, with `P_END` behind them. -/
def blockParams : Params := { nopParams with endAddr := 0x8008#32, its := [0x8000#32] }
def blockText : List Half := [0xBF06#16, 0xBF00#16, 0xBF00#16, 0xBF00#16]

/-- The slots of the block, and a branch to the last of them and one just past it, inside the block and outside it. -/
theorem witness_TakenBranchIntoBlockFaults :
    (demo blockText 0#8 noFlags blockParams).itSlots = [0x8002#32, 0x8004#32, 0x8006#32] ∧
      (((0x4003#31 : BitVec 31) ++ 0#1 : Addr) ∈ [0x8002#32, 0x8004#32, 0x8006#32]) ∧
      (((0x4004#31 : BitVec 31) ++ 0#1 : Addr) ∉ [0x8002#32, 0x8004#32, 0x8006#32]) ∧
      ({ setsFlags false with target := some 0x4003#31 } : OtherEffect).target = some 0x4003#31 ∧
      inITBlock (demo blockText 0x18#8 noFlags blockParams).it = true := by decide

/-- A bad `IT` (`ITE AL`) has no slots under NOP and UNDEF, and under ITD controls a longer block has none; under FAULT its
slots count, since it may be executed (log 16). -/
theorem test_slots_follow_the_parameters :
    (demo [0xBFEC#16, 0xBF00#16] 0#8 noFlags { blockParams with cuIT := .nop }).itSlots = [] ∧
      (demo [0xBFEC#16, 0xBF00#16] 0#8 noFlags { blockParams with cuIT := .undef }).itSlots = [] ∧
      (demo blockText 0#8 noFlags { blockParams with itd := true }).itSlots = [] ∧
      (demo [0xBFEC#16, 0xBF00#16] 0#8 noFlags blockParams).itSlots = [0x8002#32, 0x8004#32] := by decide

theorem fetches_demo (it : ITBits) (f : Flags) (p : Params) (hw : Half) (hc : inconsistentIT it = false)
    (hp : p.endAddr = 0#32) : Fetches (demo [hw] it f p) hw := by
  refine ⟨hc, ?_, ?_⟩
  · show (0x00008000#32 : Addr) ≠ p.endAddr
    rw [hp]; decide
  · have h : ∀ lo hi : Byte, fetch16 [(0x8000, lo), (0x8001, hi)] 0x8000#32 = .ok (halfOfBytes lo hi) := fun _ _ => rfl
    have hb : halfOfBytes (hw.extractLsb' 0 8) (hw.extractLsb' 8 8) = hw := by
      apply BitVec.eq_of_toNat_eq
      have hlt := hw.isLt
      simp only [halfOfBytes, BitVec.toNat_append, BitVec.extractLsb'_toNat, Nat.shiftRight_eq_div_pow]
      rw [← Nat.shiftLeft_add_eq_or_of_lt (by omega), Nat.shiftLeft_eq]
      omega
    exact (h _ _).trans (congrArg Except.ok hb)

theorem witness_FailedConditionOnlyAdvances :
    Fetches (demo [0xBF00#16] 0x08#8 noFlags nopParams) 0xBF00#16 ∧ isIT 0xBF00#16 = false ∧
      currentCond 0x08#8 = some 0b0000#4 ∧ conditionHolds 0b0000#4 noFlags = false ∧
      step (demo [0xBF00#16] 0x08#8 noFlags nopParams) =
        .next { demo [0xBF00#16] 0x00#8 noFlags nopParams with pc := 0x8002#32 } :=
  ⟨fetches_demo _ _ _ _ rfl rfl, by decide, by decide, by decide, eq_next (by decide)⟩

/-- One completed step serves the three clauses: the NOP instantiation, and a failed condition; the `IT` is the next one. -/
theorem witness_FlagsAndOtherKeptButByOtherInstr :
    step (demo [0xBF00#16] 0x08#8 noFlags nopParams) =
        .next { demo [0xBF00#16] 0x00#8 noFlags nopParams with pc := 0x8002#32 } ∧
      nopParams.otherInstr ≠ .user ∧ currentCond 0x08#8 = some 0b0000#4 ∧ conditionHolds 0b0000#4 noFlags = false ∧
      step (demo [0xBF06#16] 0x00#8 zFlag { Params.default with otherInstr := .user }) =
        .next { demo [0xBF06#16] 0x06#8 zFlag { Params.default with otherInstr := .user } with
          pc := 0x8002#32, shouldAdvanceIT := false } ∧
      fetch16 (demo [0xBF06#16] 0x00#8 zFlag { Params.default with otherInstr := .user }).text 0x8000#32 =
        .ok 0xBF06#16 ∧ isIT 0xBF06#16 = true :=
  ⟨eq_next (by decide), by decide, by decide, by decide, eq_next (by decide), by decide, by decide⟩

theorem witness_StepRunsDecodedInstruction :
    inconsistentIT 0#8 = false ∧ (demo [0xBF06#16] 0#8 zFlag Params.default).pc ≠ 0#32 ∧
      (demo [0xBF06#16] 0#8 zFlag Params.default).pc.getLsbD 0 = false ∧
      (demo [0xBF06#16] 0#8 zFlag Params.default).text.read 0x8000#32 = some 0x06#8 ∧
      (demo [0xBF06#16] 0#8 zFlag Params.default).text.read 0x8001#32 = some 0xBF#8 ∧
      decode [0x06#8, 0xBF#8] = .ok (.it 0b0000#4 0b0110#4, []) ∧ (Instr.it 0b0000#4 0b0110#4).wf = true := by decide

theorem witness_StepHandsOtherHalfwordsOver :
    Fetches (demo [0x3001#16] 0#8 zFlag Params.default) 0x3001#16 ∧ opcodeOf 0x3001#16 ≠ 0xBF#8 :=
  ⟨fetches_demo _ _ _ _ rfl rfl, by decide⟩

/-- A good condition, and a bad one that is executed. -/
theorem witness_StepOfITLeavesSlotOneState :
    Fetches (demo [0xBF06#16] 0#8 zFlag Params.default) 0xBF06#16 ∧
      SetsITSTATE 0xBF06#16 (demo [0xBF06#16] 0#8 zFlag Params.default) ∧
      step (demo [0xBF06#16] 0#8 zFlag Params.default) =
        .next { demo [0xBF06#16] 0x06#8 zFlag Params.default with pc := 0x8002#32, shouldAdvanceIT := false } ∧
      SetsITSTATE 0xBFEC#16 (demo [0xBFEC#16] 0#8 zFlag { Params.default with cuIT := .execute }) ∧
      step (demo [0xBFEC#16] 0#8 zFlag { Params.default with cuIT := .execute }) =
        .next { demo [0xBFEC#16] 0xEC#8 zFlag { Params.default with cuIT := .execute } with
          pc := 0x8002#32, shouldAdvanceIT := false } :=
  ⟨fetches_demo _ _ _ _ rfl rfl, ⟨by decide, .inl (by decide)⟩, eq_next (by decide), ⟨by decide, .inr rfl⟩,
    eq_next (by decide)⟩

/-- `0x10` and `0xF0` are the ends of the fifteen values. -/
theorem witness_InconsistentITSTATEFaultsFirst :
    ((0x10#8 : ITBits).extractLsb' 0 4 = 0#4 ∧ (0x10#8 : ITBits).extractLsb' 4 4 ≠ 0#4) ∧
      (0xF0#8 : ITBits).extractLsb' 0 4 = 0#4 ∧ (0xF0#8 : ITBits).extractLsb' 4 4 ≠ 0#4 := by decide

/-- The end of program P7, and a final state. -/
theorem witness_EndOfRun :
    (demo [] 0x08#8 zFlag { nopParams with endAddr := 0x8000#32 }).pc = 0x8000#32 ∧
      (0x08#8 : ITBits).extractLsb' 0 4 ≠ 0#4 ∧
      (demo [] 0x00#8 zFlag { nopParams with endAddr := 0x8000#32 }).it = 0#8 := by decide

/-- No byte at all, and only the first byte (vector 2.8). -/
theorem witness_FetchOutsideTextRefused :
    inconsistentIT State.reset.it = false ∧ State.reset.pc ≠ State.reset.params.endAddr ∧
      State.reset.pc.getLsbD 0 = false ∧ State.reset.text.read State.reset.pc = none ∧
      Memory.read [(0x8000, 0x06#8)] 0x8000#32 = some 0x06#8 ∧ Memory.read [(0x8000, 0x06#8)] 0x8001#32 = none := by
  decide

theorem witness_StepIgnoresShouldAdvanceIT : isFinal State.reset = false := by decide

theorem witness_ITIsUnconditional :
    Fetches (demo [0xBF06#16] 0#8 zFlag Params.default) 0xBF06#16 ∧ isIT 0xBF06#16 = true ∧
      step (demo [0xBF06#16] 0#8 zFlag Params.default) =
        .next { demo [0xBF06#16] 0x06#8 zFlag Params.default with pc := 0x8002#32, shouldAdvanceIT := false } :=
  ⟨fetches_demo _ _ _ _ rfl rfl, by decide, eq_next (by decide)⟩

theorem witness_ITSTATEIndependentOfFlags :
    (demo [0xBF00#16] 0x06#8 zFlag nopParams).params.otherInstr ≠ .user := by decide

theorem witness_BlockEnteredOnlyByIT :
    step (demo [0xBF06#16] 0#8 zFlag Params.default) =
        .next { demo [0xBF06#16] 0x06#8 zFlag Params.default with pc := 0x8002#32, shouldAdvanceIT := false } ∧
      (demo [0xBF06#16] 0#8 zFlag Params.default).it = 0#8 ∧ (0x06#8 : ITBits) ≠ 0#8 :=
  ⟨eq_next (by decide), by decide, by decide⟩

/-- A step for each fault but the branch's, which only the user's instantiation can raise (`applyOther` raises it in
witness_TakenBranchIntoBlockFaults's state). -/
theorem witness_StepFaultsOnlyForItsCause :
    step (demo [0xBF04#16] 0#8 noFlags { Params.default with itd := true }) =
        .fault (.undefined (.itDisabled 0x8000#32 0xBF04#16)) ∧
      step (demo [0xBFEC#16] 0#8 noFlags { Params.default with cuIT := .undef }) =
        .fault (.undefined (.itBadCondition 0x8000#32 0xBFEC#16)) ∧
      step (demo [0xBFEC#16] 0#8 noFlags Params.default) =
        .fault (.unpredictable (.itBadCondition 0x8000#32 0xBFEC#16)) ∧
      step (demo [0xBF08#16] 0x18#8 noFlags Params.default) =
        .fault (.unpredictable (.itInsideITBlock 0x8000#32 0xBF08#16)) ∧
      step (demo [0xBF08#16] 0x30#8 noFlags Params.default) =
        .fault (.unpredictable (.inconsistentITSTATE 0x8000#32 0x30#8)) :=
  ⟨eq_fault (by decide), eq_fault (by decide), eq_fault (by decide), eq_fault (by decide), eq_fault (by decide)⟩

/-- A step for each refusal; vector E26 is the one of the top of the address space. -/
theorem witness_StepRefusesOnlyForItsCause :
    step State.reset = .refused (.noText 0x8000#32) ∧
      step { State.reset with pc := 0x8001#32 } = .refused (.oddFetch 0x8001#32) ∧
      step (demo [0xBF00#16] 0#8 noFlags Params.default) = .refused (.notInSpec 0xBF00#16) ∧
      step { State.reset with pc := 0xFFFFFFFE#32, text := [(0xFFFFFFFE, 0x08#8), (0xFFFFFFFF, 0xBF#8)] } =
        .refused .pcWrap ∧
      step (demo [] 0x08#8 zFlag { nopParams with endAddr := 0x8000#32 }) = .refused .endInsideITBlock :=
  ⟨eq_refused (by decide), eq_refused (by decide), eq_refused (by decide), eq_refused (by decide),
    eq_refused (by decide)⟩

theorem inv_demo : Inv (demo [0xBF06#16] 0#8 zFlag Params.default) := ⟨by decide, by decide, by decide⟩

theorem witness_InvariantExcludesOddFetch : Inv (demo [0xBF06#16] 0#8 zFlag Params.default) := inv_demo

theorem witness_StepKeepsInvariant :
    Inv (demo [0xBF06#16] 0#8 zFlag Params.default) ∧
      step (demo [0xBF06#16] 0#8 zFlag Params.default) =
        .next { demo [0xBF06#16] 0x06#8 zFlag Params.default with pc := 0x8002#32, shouldAdvanceIT := false } :=
  ⟨inv_demo, eq_next (by decide)⟩

/-- A launch of the block of `ITTE EQ` in slot 3, its last (R114: the slot sees `0x18`), as an exception return would restore
it. -/
def slot3 : State :=
  launch (demo blockText 0#8 noFlags blockParams).text blockParams 0x8006#32 zFlag 0x18#8 []

theorem slot3_nop : fetch16 slot3.text 0x8006#32 = .ok 0xBF00#16 := by decide

theorem slot3_line (n : Nat) (a : Addr) (he : slot3.params.endAddr ∉ lineOf slot3.text n slot3.pc)
    (ha : a ∈ lineOf slot3.text n slot3.pc) : a = 0x8006#32 := by
  have hpc : slot3.pc = 0x8006#32 := rfl
  have hend : slot3.params.endAddr = 0x8008#32 := rfl
  have hl : instrLength 0xBF00#16 = 2 := by decide
  have h8 : (0x8006#32 : Addr) + BitVec.ofNat 32 2 = 0x8008#32 := by decide
  have hfit : (0x8006#32 : Addr).toNat + 2 < 2 ^ 32 := by decide
  rw [hpc] at he ha
  match n with
  | 0 => cases ha
  | 1 => simpa only [lineOf, slot3_nop, hl, if_pos hfit, List.mem_singleton] using ha
  | n + 2 =>
    rw [hend, lineOf, slot3_nop] at he
    simp only [hl, if_pos hfit, h8, lineOf, List.mem_cons, true_or, or_true, not_true] at he

theorem block_declared : ∀ a ∈ slot3.params.its, ∃ hw, fetch16 slot3.text a = .ok hw ∧ isIT hw = true := by
  intro a ha
  obtain rfl : a = 0x8000#32 := List.mem_singleton.1 ha
  exact ⟨0xBF06#16, by decide⟩

theorem slot3_listed : ITsListed slot3 := by
  refine ⟨block_declared, fun n a hw he ha hf hi => ?_⟩
  rw [slot3_line n a he ha, slot3_nop] at hf
  cases hf
  exact absurd hi (by decide)

theorem slot3_legal : LegalLaunch slot3 :=
  ⟨by decide, .inr ⟨0x8000#32, 0b0000#4, 0b0110#4, 3, by decide, by decide, by decide, by decide, by decide, by decide,
    by decide, by decide⟩, by decide, slot3_listed⟩

/-- The address just past the block is no slot, and a clean launch may start there (it is the end of the run). -/
theorem past_legal : LegalLaunch ((slot3.setPC 0x8008#32).setIT 0#8) :=
  ⟨by decide, .inl ⟨rfl, by decide⟩, by decide, block_declared, fun n a hw he ha _ _ => by
    cases n with
    | zero => cases ha
    | succ n => exact absurd (List.mem_cons_self ..) he⟩

theorem witness_LegalLaunchHasInvariant :
    LegalLaunch slot3 ∧ slot3.it ≠ 0#8 ∧ LegalLaunch ((slot3.setPC 0x8008#32).setIT 0#8) ∧
      ((slot3.setPC 0x8008#32).setIT 0#8).it = 0#8 :=
  ⟨slot3_legal, by decide, past_legal, rfl⟩

/-- The pc of that launch is a slot, so the same launch with `PSTATE.IT == '00000000'` is not `LegalLaunch.itstate`'s first
case (R33, R113). -/
theorem test_slot3_is_a_slot : slot3.pc ∈ slot3.itSlots := by decide

theorem witness_StepKeepsTextAndParameters :
    step (demo [0xBF06#16] 0#8 zFlag Params.default) =
      .next { demo [0xBF06#16] 0x06#8 zFlag Params.default with pc := 0x8002#32, shouldAdvanceIT := false } :=
  eq_next (by decide)

/-- Slot 2 and the last slot, 3, of `ITTE EQ`. -/
theorem witness_StepWalksTheBlock :
    (demo [0xBF00#16] 0x0C#8 zFlag nopParams).it = slotITSTATE 0b0000#4 0b0110#4 2 ∧
      (demo [0xBF00#16] 0x18#8 zFlag nopParams).it = slotITSTATE 0b0000#4 0b0110#4 3 ∧
      blockLength 0b0110#4 = 3 ∧
      step (demo [0xBF00#16] 0x0C#8 zFlag nopParams) =
        .next { demo [0xBF00#16] 0x18#8 zFlag nopParams with pc := 0x8002#32 } ∧
      step (demo [0xBF00#16] 0x18#8 zFlag nopParams) =
        .next { demo [0xBF00#16] 0x00#8 zFlag nopParams with pc := 0x8002#32 } :=
  ⟨by decide, by decide, by decide, eq_next (by decide), eq_next (by decide)⟩

/-- `IT EQ` and its one NOP: after the `IT` (`j` = 0) and after the block (`j` = 1, its length). -/
theorem witness_BlockLastsItsLength :
    Fetches (demo [0xBF08#16, 0xBF00#16] 0#8 zFlag nopParams) 0xBF08#16 ∧
      SetsITSTATE 0xBF08#16 (demo [0xBF08#16, 0xBF00#16] 0#8 zFlag nopParams) ∧
      blockLength (maskField 0xBF08#16) = 1 ∧
      Host.Core.run Sys2Proof.core (0 + 1) (demo [0xBF08#16, 0xBF00#16] 0#8 zFlag nopParams) =
        .next { demo [0xBF08#16, 0xBF00#16] 0x08#8 zFlag nopParams with pc := 0x8002#32, shouldAdvanceIT := false } ∧
      Host.Core.run Sys2Proof.core (1 + 1) (demo [0xBF08#16, 0xBF00#16] 0#8 zFlag nopParams) =
        .next { demo [0xBF08#16, 0xBF00#16] 0x00#8 zFlag nopParams with pc := 0x8004#32 } := by
  refine ⟨⟨by decide, by decide, by decide⟩, ⟨by decide, .inl (by decide)⟩, by decide, ?_, ?_⟩
  · rw [core_run_next (eq_next (t := { demo [0xBF08#16, 0xBF00#16] 0x08#8 zFlag nopParams with
      pc := 0x8002#32, shouldAdvanceIT := false }) (by decide))]
    rfl
  · rw [core_run_next (eq_next (t := { demo [0xBF08#16, 0xBF00#16] 0x08#8 zFlag nopParams with
      pc := 0x8002#32, shouldAdvanceIT := false }) (by decide)),
      core_run_next (eq_next (t := { demo [0xBF08#16, 0xBF00#16] 0x00#8 zFlag nopParams with
        pc := 0x8004#32 }) (by decide))]
    rfl

theorem witness_BlockSlotsAreExecuted :
    Fetches (demo [0xBF08#16, 0xBF00#16] 0#8 zFlag nopParams) 0xBF08#16 ∧
      SetsITSTATE 0xBF08#16 (demo [0xBF08#16, 0xBF00#16] 0#8 zFlag nopParams) ∧
      (demo [0xBF08#16, 0xBF00#16] 0#8 zFlag nopParams).params.otherInstr = .nop ∧
      0 < blockLength (maskField 0xBF08#16) ∧
      Host.Core.run Sys2Proof.core (0 + 1) (demo [0xBF08#16, 0xBF00#16] 0#8 zFlag nopParams) =
        .next { demo [0xBF08#16, 0xBF00#16] 0x08#8 zFlag nopParams with pc := 0x8002#32, shouldAdvanceIT := false } :=
  ⟨witness_BlockLastsItsLength.1, witness_BlockLastsItsLength.2.1, by decide, by decide,
    witness_BlockLastsItsLength.2.2.2.1⟩

/-- A good `IT`; a bad one under NOP; under ITD controls an `IT` of three, and `IT EQ` before an allowed, a listed and no
halfword; an `IT` at the top. -/
theorem witness_BlockSlotsShape :
    fetch16 (demo [0xBF06#16] 0#8 noFlags Params.default).text 0x8000#32 = .ok 0xBF06#16 ∧ isIT 0xBF06#16 = true ∧
      (0x8000#32 : Addr).toNat + 2 < 2 ^ 32 ∧ badCondition 0b0000#4 0b0110#4 = false ∧ Params.default.itd = false ∧
      fetch16 (demo [0xBFEC#16] 0#8 noFlags Params.default).text 0x8000#32 = .ok 0xBFEC#16 ∧ isIT 0xBFEC#16 = true ∧
      badCondition 0b1110#4 0b1100#4 = true ∧ maskField 0xBF06#16 ≠ 0b1000#4 ∧ maskField 0xBF08#16 = 0b1000#4 ∧
      fetch16 (itdDemo 0x4408#16).text 0x8002#32 = .ok 0x4408#16 ∧ itdForbids 0x4408#16 = false ∧
      fetch16 (itdDemo 0xF000#16).text 0x8002#32 = .ok 0xF000#16 ∧ itdForbids 0xF000#16 = true ∧
      (demo [0xBF08#16] 0#8 noFlags Params.default).text.read 0x8002#32 = none ∧
      fetch16 [(0xFFFFFFFE, 0x08#8), (0xFFFFFFFF, 0xBF#8)] 0xFFFFFFFE#32 = .ok 0xBF08#16 ∧
      2 ^ 32 ≤ (0xFFFFFFFE#32 : Addr).toNat + 2 := by decide

/-- Slot 1 and the last slot of `ITTTT AL`. -/
theorem witness_AlwaysBlocksPass :
    (0b0001#4 : Mask) ≠ 0#4 ∧ blockLength 0b0001#4 = 4 ∧ bitCount (0b0001#4 : Mask) = 1 := by decide

theorem witness_FetchIsLittleEndian :
    (0x8000#32 : Addr).getLsbD 0 = false ∧
      (demo [0xBF06#16] 0#8 noFlags Params.default).text.read 0x8000#32 = some 0x06#8 ∧
      (demo [0xBF06#16] 0#8 noFlags Params.default).text.read 0x8001#32 = some 0xBF#8 := by decide

theorem witness_PlacedHalfwordIsFetched : (0xFFFFFFFE#32 : Addr).getLsbD 0 = false := by decide

/-- A word of each row of the table. -/
theorem witness_FetchWordRunsNext :
    inconsistentIT State.reset.it = false ∧ State.reset.pc.getLsbD 0 = false ∧
      decodeTableWord 16 0xBFFF = some (.it 0b1111#4 0b1111#4) ∧ decodeTableWord 16 0xBF00 = some (.misc16 0b0000#4) := by
  decide

/-- Both directions on `ITTET HI`, and `.N`. -/
theorem witness_AssembleDisassembleAgree :
    lineHalf { letters := [.t, .e, .t], qualifier := .narrow, cond := 0b1000#4 } = some 0xBF85#16 ∧
      lineHalf { letters := [.t, .e, .t], qualifier := .none, cond := 0b1000#4 } = some 0xBF85#16 ∧
      disassemble 0xBF85#16 = some { letters := [.t, .e, .t], qualifier := .none, cond := 0b1000#4 } := by decide

theorem witness_A32EmitsNothing :
    assemble .a32 { letters := [], qualifier := .none, cond := 0b0000#4 } = some [] ∧
      assemble .t32 { letters := [], qualifier := .none, cond := 0b0000#4 } = some [0x08#8, 0xBF#8] := by decide

/-- Both directions: a line, its halfword and its mask, at three letters; and the qualifier that has none. -/
theorem witness_LineHalfword :
    lineHalf { letters := [.t, .e, .t], qualifier := .narrow, cond := 0b1000#4 } = some 0xBF85#16 ∧
      maskOf (condLow 0b1000#4) [.t, .e, .t] = some 0b0101#4 ∧ badCondition 0b1000#4 0b0101#4 = false ∧
      lineHalf { letters := [.t, .e, .t], qualifier := .wide, cond := 0b1000#4 } = none := by decide

/-- A 16-bit and a 32-bit instruction, and the top of the address space for each length. -/
theorem witness_OtherInstrHasItsEffect :
    (setsFlags false).target = none ∧ isWide 0x3001#16 = false ∧ isWide 0xF000#16 = true ∧
      (demo [] 0#8 noFlags Params.default).pc.toNat + 4 < 2 ^ 32 ∧
      (0xFFFFFFFC#32 : Addr).toNat + 2 < 2 ^ 32 ∧ ¬ (0xFFFFFFFC#32 : Addr).toNat + 4 < 2 ^ 32 := by decide

/-- NOP is answered, YIELD is not, and a 32-bit instruction has its second halfword. -/
theorem witness_StepAsksOtherInstr :
    Fetches (demo [0xBF00#16] 0x08#8 zFlag nopParams) 0xBF00#16 ∧ isIT 0xBF00#16 = false ∧
      currentCond 0x08#8 = some 0b0000#4 ∧
      pOtherInstr 0xBF00#16 true none (demo [0xBF00#16] 0x08#8 zFlag nopParams) =
        some (nopEffect (demo [0xBF00#16] 0x08#8 zFlag nopParams)) ∧
      Fetches (demo [0xBF10#16] 0x08#8 zFlag nopParams) 0xBF10#16 ∧
      pOtherInstr 0xBF10#16 true none (demo [0xBF10#16] 0x08#8 zFlag nopParams) = none ∧ isWide 0xBF10#16 = false ∧
      isWide 0xF000#16 = true ∧
      fetch16 (demo [0xF000#16, 0x8000#16] 0x08#8 zFlag nopParams).text 0x8002#32 = .ok 0x8000#16 :=
  ⟨fetches_demo _ _ _ _ rfl rfl, by decide, by decide, by decide, fetches_demo _ _ _ _ rfl rfl, by decide, by decide,
    by decide, by decide⟩

/-- A 16-bit halfword of no row and a 32-bit one with its second halfword, each with the hypotheses of every instantiation;
and `0xBF00`. -/
theorem witness_OtherInstrUnderEachInstantiation :
    (∀ o : OtherChoice,
      Fetches (demo [0x3001#16] 0x08#8 zFlag { Params.default with otherInstr := o }) 0x3001#16 ∧
        Fetches (demo [0xBF00#16] 0x08#8 zFlag { Params.default with otherInstr := o }) 0xBF00#16 ∧
        (demo [0x3001#16] 0x08#8 zFlag { Params.default with otherInstr := o }).params.otherInstr = o) ∧
      isIT 0x3001#16 = false ∧ isWide 0x3001#16 = false ∧ currentCond 0x08#8 = some 0b0000#4 ∧
      Fetches (demo [0xF000#16, 0x8000#16] 0#8 zFlag Params.default) 0xF000#16 ∧
      isIT 0xF000#16 = false ∧ isWide 0xF000#16 = true ∧
      fetch16 (demo [0xF000#16, 0x8000#16] 0#8 zFlag Params.default).text 0x8002#32 = .ok 0x8000#16 :=
  ⟨fun _ => ⟨fetches_demo _ _ _ _ rfl rfl, fetches_demo _ _ _ _ rfl rfl, rfl⟩, by decide, by decide, by decide,
    ⟨by decide, by decide, by decide⟩, by decide, by decide, by decide⟩

/-- Halfwords of no row under the empty instantiation and under NOP alone (R115, D13). -/
theorem test_halfwords_of_no_row_refused :
    refusalOf (step (demo [0x3001#16] 0#8 zFlag Params.default)) = some (.notInSpec 0x3001#16) ∧
      refusalOf (step (demo [0x3001#16] 0#8 zFlag nopParams)) = some (.notInSpec 0x3001#16) ∧
      refusalOf (step (demo [0xF000#16, 0x8000#16] 0#8 zFlag nopParams)) = some (.notInSpec 0xF000#16) := by decide

/-- A listed bad `IT` (`ITE AL`) under FAULT, the default, and under EXECUTE, and a state of another choice. -/
theorem witness_SlotsOfTheListedITs :
    (demo [0xBFEC#16] 0#8 noFlags blockParams).params.cuIT = .fault ∧ (0x8000#32 : Addr) ∈ blockParams.its ∧
      fetch16 (demo [0xBFEC#16] 0#8 noFlags blockParams).text 0x8000#32 = .ok 0xBFEC#16 ∧
      classify 0xBFEC#16 = .constrainedUnpredictable ∧ blockParams.itd = false ∧
      (0x8000#32 : Addr).toNat + 2 < 2 ^ 32 ∧
      (demo [0xBFEC#16] 0#8 noFlags { blockParams with cuIT := .nop }).params.cuIT ≠ .fault := by decide

/-- A 32-bit instruction whose second halfword is not there, under the empty instantiation, and one at the top. -/
theorem witness_SecondHalfwordOutsideTextRefused :
    Fetches (demo [0xF000#16] 0#8 zFlag Params.default) 0xF000#16 ∧ isWide 0xF000#16 = true ∧
      (demo [0xF000#16] 0#8 zFlag Params.default).text.read 0x8002#32 = none ∧
      Fetches { State.reset with pc := 0xFFFFFFFE#32, text := [(0xFFFFFFFE, 0x00#8), (0xFFFFFFFF, 0xF0#8)] } 0xF000#16 :=
  ⟨fetches_demo _ _ _ _ rfl rfl, by decide, by decide, by decide, by decide, by decide⟩

/-- Decoding with bytes left over, and an instruction of each row that is well formed. -/
theorem witness_DecodeEncodeAgree :
    (Instr.it 0b1111#4 0b0001#4).wf = true ∧ (Instr.misc16 0b1111#4).wf = true ∧
      decode [0xF1#8, 0xBF#8, 0x00#8] = .ok (.it 0b1111#4 0b0001#4, [0x00#8]) := by decide

theorem witness_HalfwordIsITIff : decodeHalf 0xBF01#16 = .ok (.it 0b0000#4 0b0001#4) := by decide

/-- Slots 2 and 4, the ends of the range of `k`, of `ITETT EQ`. -/
theorem witness_SlotConditions :
    slotCond 0b0000#4 0b1001#4 2 = 0b0001#4 ∧ slotCond 0b0000#4 0b1001#4 4 = 0b0000#4 := by decide

/-- One value under each clause. -/
theorem witness_CurrentCondCases :
    (0x01#8 : ITBits).extractLsb' 0 4 ≠ 0#4 ∧ (0x00#8 : ITBits) = 0#8 ∧
      ((0x10#8 : ITBits).extractLsb' 0 4 = 0#4 ∧ (0x10#8 : ITBits) ≠ 0#8) := by decide

theorem witness_ITAdvanceCases :
    (0xF8#8 : ITBits).extractLsb' 0 3 = 0#3 ∧ (0xF9#8 : ITBits).extractLsb' 0 3 ≠ 0#3 := by decide

end Sys2Proof.Tests
end

section
/-! PROOF. The scope statements: why a step is refused, the reset state, `BitCount`, and the halfwords that are not `IT`
under each instantiation of `P_OtherInstr`. First what the fetch after the pc and the step answer, then the statements. -/

namespace Sys2Proof.Machine

/-! ### The fetch after the pc -/

/-- The reasons the fetch after the pc refuses with (R22, R41): no such address, or what `fetch16` finds there. -/
theorem fetchAfter_error {k : Nat} {s : State} {r : Refusal} (h : fetchAfter k s = .error r) :
    (r = .pcWrap ∧ ¬ s.pc.toNat + k < 2 ^ 32) ∨ fetch16 s.text (s.pc + BitVec.ofNat 32 k) = .error r := by
  simp only [fetchAfter] at h
  split at h
  · exact .inr h
  · cases h; exact .inl ⟨rfl, by assumption⟩

theorem fetchAfter_of_fits {k : Nat} {s : State} (h : s.pc.toNat + k < 2 ^ 32) :
    fetchAfter k s = fetch16 s.text (s.pc + BitVec.ofNat 32 k) := if_pos h

/-- A 32-bit instruction's second halfword, where the text holds it (R41, R62). -/
theorem secondHalf_wide {hw hw2 : Half} {s : State} (hwide : isWide hw = true) (hfits : s.pc.toNat + 2 < 2 ^ 32)
    (hf : fetch16 s.text (s.pc + 2#32) = .ok hw2) : secondHalf hw s = .ok (some hw2) := by
  have hafter : fetchAfter 2 s = .ok hw2 := (fetchAfter_of_fits hfits).trans hf
  simp [secondHalf, hwide, hafter]

theorem two_le_instrLength (hw : Half) : 2 ≤ instrLength hw := by
  simp only [instrLength]; split <;> omega

/-! ### The step -/

theorem step_of_fetches {s : State} {hw : Half} (h : Fetches s hw) :
    step s = endStep (runHalf hw (s.setShouldAdvanceIT true)) := by
  obtain ⟨hc, hp, hf⟩ := h
  simp only [step, beginStep_of_fetched hc hp hf]

theorem runHalf_of_not_isIT {hw : Half} (s : State) (h : isIT hw = false) : runHalf hw s = otherInstr hw s := by
  obtain ⟨hi, -⟩ | ⟨-, hr⟩ := runHalf_cases hw s
  · rw [h] at hi; cases hi
  · exact hr

/-- Everything a refusal of the step can be (R102): the end of the run inside a block, the fetch at the pc, or what the
instruction refuses with. -/
theorem step_refused {s : State} {r : Refusal} (h : step s = .refused r) :
    (r = .endInsideITBlock ∧ s.pc = s.params.endAddr ∧ inITBlock s.it = true) ∨
      fetch16 s.text s.pc = .error r ∨
      (∃ hw, Fetches s hw ∧ runHalf hw (s.setShouldAdvanceIT true) = .refused r) := by
  simp only [step] at h
  split at h
  · rename_i o hb
    subst h
    obtain ⟨ho, -⟩ | ⟨ho, -⟩ | ⟨ho, hp, hin⟩ | ⟨r', ho, hf, -⟩ := beginStep_done hb
    · cases ho
    · cases ho
    · cases ho; exact .inl ⟨rfl, hp, hin⟩
    · cases ho; exact .inr (.inl hf)
  · rename_i hw s1 hb
    obtain ⟨hc, hp, hf, rfl⟩ := beginStep_fetched hb
    exact .inr (.inr ⟨hw, ⟨hc, hp, hf⟩, endStep_refused h⟩)

/-! ### The cause of each refusal -/

/-- A fetch at the pc that refuses has its cause (R41, R43). -/
theorem refusalCause_of_fetch16 {s : State} {r : Refusal} (h : fetch16 s.text s.pc = .error r) : RefusalCause s r := by
  obtain ⟨rfl, hodd⟩ | ⟨rfl, heven, hnone⟩ := fetch16_error h
  · exact ⟨rfl, hodd⟩
  · exact ⟨heven, hnone, .inl rfl⟩

/-- An advance by at most the instruction's length that does not fit in 32 bits is a cause for `PcWrap` (R22). -/
theorem refusalCause_pcWrap {s : State} {hw : Half} {k : Nat} (hf : fetch16 s.text s.pc = .ok hw)
    (hk : k ≤ instrLength hw) (hwrap : ¬ s.pc.toNat + k < 2 ^ 32) : RefusalCause s .pcWrap :=
  ⟨hw, hf, by omega⟩

/-- A second fetch that refuses has its cause (R41, R86). The halfword at the pc was fetched, so the pc is even and the second
fetch is not at an odd address. -/
theorem refusalCause_of_fetchAfter {s : State} {hw : Half} {r : Refusal} (hf : fetch16 s.text s.pc = .ok hw)
    (hasks : isWide hw = true ∨ (isIT hw = true ∧ s.params.itd = true ∧ maskField hw = 0b1000#4))
    (h : fetchAfter 2 s = .error r) : RefusalCause s r := by
  obtain ⟨rfl, hwrap⟩ | h2 := fetchAfter_error h
  · exact refusalCause_pcWrap hf (two_le_instrLength hw) hwrap
  · have heven : (s.pc + 2#32).getLsbD 0 = false := even_add (fetch16_ok hf).1 rfl
    obtain ⟨-, hodd⟩ | ⟨rfl, -, hnone⟩ := fetch16_error h2
    · rw [heven] at hodd; cases hodd
    · exact ⟨heven, hnone, .inr ⟨rfl, hw, hf, hasks⟩⟩

/-- What a fetched instruction refuses with has its cause. `ShouldAdvanceIT`, which the step sets first, is read by none of
the operations, so the cause is one of the state before the step. -/
theorem refusalCause_of_runHalf {s : State} {hw : Half} {r : Refusal} (hf : fetch16 s.text s.pc = .ok hw)
    (h : runHalf hw (s.setShouldAdvanceIT true) = .refused r) : RefusalCause s r := by
  obtain ⟨hi, hm, hrun⟩ | ⟨hi, hrun⟩ := runHalf_cases hw (s.setShouldAdvanceIT true) <;> rw [hrun] at h
  · obtain ⟨rfl, hwrap⟩ | ⟨hitd, hmask, hafter⟩ := execIT_refused hm h
    · exact refusalCause_pcWrap hf (two_le_instrLength hw) hwrap
    · exact refusalCause_of_fetchAfter hf (.inr ⟨hi, hitd, hmask⟩) hafter
  · obtain ⟨hwide, hafter⟩ | ⟨cond, hw2, hcond, hsecond, hnone, rfl⟩ | ⟨rfl, hwrap⟩ := otherInstr_refused h
    · exact refusalCause_of_fetchAfter hf (.inl hwide) hafter
    · exact ⟨hf, hi, hw2, cond, hsecond, hcond, hnone⟩
    · exact refusalCause_pcWrap hf le_rfl hwrap

/-- Settles O27: the three ways a step is refused, each with its cause. -/
theorem stepRefusesOnlyForItsCause : Obligations.StepRefusesOnlyForItsCause := by
  intro s r h
  obtain ⟨rfl, hp, hin⟩ | hf | ⟨hw, ⟨-, -, hf⟩, hrun⟩ := step_refused h
  · exact ⟨hp, hin⟩
  · exact refusalCause_of_fetch16 hf
  · exact refusalCause_of_runHalf hf hrun

/-! ### The reset state and `BitCount` -/

/-- Settles O33: the fields of the reset state as they are written, and a text that lists no byte. -/
theorem resetValues : Obligations.ResetValues :=
  ⟨rfl, rfl, rfl, rfl, rfl, rfl, rfl, rfl, rfl, rfl, fun _ => rfl⟩

/-- `bitCount` is the cardinality of the set of positions that hold a `1` (R8). -/
theorem bitCount_eq_card {w : Nat} (v : BitVec w) :
    bitCount v = ((Finset.range w).filter fun i => v.getLsbD i = true).card := by
  calc bitCount v = ((List.range w).filter fun i => v.getLsbD i).length := List.countP_eq_length_filter
    _ = ((Finset.range w).filter fun i => v.getLsbD i = true).card := by simp [Finset.card, Finset.range, Multiset.range]

/-- Settles O43: the cardinality at every width, and the sixteen masks. -/
theorem bitCountOfMask : Obligations.BitCountOfMask :=
  ⟨fun _ v => bitCount_eq_card v, by decide, by decide, by decide⟩

/-! ### `P_OtherInstr` under each instantiation -/

/-- A halfword that is not `IT` and for which `P_OtherInstr` is undefined is refused (R102, R115). -/
theorem step_of_pOtherInstr_none {s : State} {hw : Half} {hw2 : Option Half} {cond : Cond} (hfetch : Fetches s hw)
    (hi : isIT hw = false) (hcond : currentCond s.it = some cond) (hsecond : secondHalf hw s = .ok hw2)
    (hnone : pOtherInstr hw (conditionHolds cond s.flags) hw2 s = none) : step s = .refused (.notInSpec hw) := by
  have heff : otherEffect hw (conditionHolds cond s.flags) (s.setShouldAdvanceIT true) = .error (.notInSpec hw) := by
    have hs : secondHalf hw (s.setShouldAdvanceIT true) = .ok hw2 := hsecond
    have hp : pOtherInstr hw (conditionHolds cond s.flags) hw2 (s.setShouldAdvanceIT true) = none := hnone
    simp [otherEffect, hs, hp]
  rw [step_of_fetches hfetch, runHalf_of_not_isIT _ hi]
  simp [otherInstr, hcond, heff, endStep]

/-- A halfword that is not `IT` has the effect `P_OtherInstr` answers, and the step ends after it (R102, R115). -/
theorem step_of_pOtherInstr_some {s : State} {hw : Half} {hw2 : Option Half} {cond : Cond} {e : OtherEffect}
    (hfetch : Fetches s hw) (hi : isIT hw = false) (hcond : currentCond s.it = some cond)
    (hsecond : secondHalf hw s = .ok hw2) (hsome : pOtherInstr hw (conditionHolds cond s.flags) hw2 s = some e) :
    step s = endStep (applyOther hw (conditionHolds cond s.flags) e (s.setShouldAdvanceIT true)) := by
  have heff : otherEffect hw (conditionHolds cond s.flags) (s.setShouldAdvanceIT true) = .ok e := by
    have hs : secondHalf hw (s.setShouldAdvanceIT true) = .ok hw2 := hsecond
    have hp : pOtherInstr hw (conditionHolds cond s.flags) hw2 (s.setShouldAdvanceIT true) = some e := hsome
    simp [otherEffect, hs, hp]
  rw [step_of_fetches hfetch, runHalf_of_not_isIT _ hi]
  simp [otherInstr, hcond, heff]

/-- The empty instantiation answers nothing (R7, D13). -/
theorem pOtherInstr_empty {hw : Half} {passed : Bool} {hw2 : Option Half} {s : State}
    (ho : s.params.otherInstr = .empty) : pOtherInstr hw passed hw2 s = none := by
  simp [pOtherInstr, ho]

/-- `NOP` alone answers for no other halfword (R115). -/
theorem pOtherInstr_nop_other {hw : Half} {passed : Bool} {hw2 : Option Half} {s : State}
    (ho : s.params.otherInstr = .nop) (hne : hw ≠ 0xBF00#16) : pOtherInstr hw passed hw2 s = none := by
  simp [pOtherInstr, ho, hne]

/-- `NOP` alone answers `0xBF00`, with no effect but the advance (R115). -/
theorem pOtherInstr_nop {passed : Bool} {hw2 : Option Half} {s : State} (ho : s.params.otherInstr = .nop) :
    pOtherInstr 0xBF00#16 passed hw2 s = some (nopEffect s) := by
  have hi : isIT 0xBF00#16 = false := by decide
  simp [pOtherInstr, ho, hi]

/-- The user's instantiation is asked with the view of the state (R115). -/
theorem pOtherInstr_user {hw : Half} {passed : Bool} {hw2 : Option Half} {s : State} (hi : isIT hw = false)
    (ho : s.params.otherInstr = .user) :
    pOtherInstr hw passed hw2 s = Config.otherInstr hw (otherView hw2 s) passed := by
  simp [pOtherInstr, ho, hi]

/-- The end of a step after `NOP` (R102, R115): the pc and ITSTATE advance. -/
theorem endStep_applyOther_nop {s : State} (passed : Bool) (hfits : s.pc.toNat + 2 < 2 ^ 32) :
    endStep (applyOther 0xBF00#16 passed (nopEffect s) (s.setShouldAdvanceIT true)) =
      .next { s with pc := s.pc + 2#32, it := itAdvance s.it, shouldAdvanceIT := true } := by
  have happly : applyOther 0xBF00#16 passed (nopEffect s) (s.setShouldAdvanceIT true) =
      advancePC 2 (s.setShouldAdvanceIT true) := applyOther_nop 0xBF00#16 passed (s.setShouldAdvanceIT true)
  have hadvance := advancePC_of_fits (s := s.setShouldAdvanceIT true) hfits
  rw [happly, hadvance]
  rfl

/-- Settles O59: the second halfword is fetched, so the step is what `P_OtherInstr` answers, under each instantiation in
turn. -/
theorem otherInstrUnderEachInstantiation : Obligations.OtherInstrUnderEachInstantiation := by
  intro s hw hw2 cond hfetch hi hcond hhw2
  have hsecond : secondHalf hw s = .ok hw2 := by
    obtain ⟨hnarrow, rfl⟩ | ⟨hwide, hfits, h, hf, rfl⟩ := hhw2
    · exact secondHalf_narrow s hnarrow
    · exact secondHalf_wide hwide hfits hf
  refine ⟨fun ho => ?empty, fun ho hne => ?nopOther, fun ho hnop hfits => ?nop, fun ho => ?user⟩
  case empty => exact step_of_pOtherInstr_none hfetch hi hcond hsecond (pOtherInstr_empty ho)
  case nopOther => exact step_of_pOtherInstr_none hfetch hi hcond hsecond (pOtherInstr_nop_other ho hne)
  case nop =>
    subst hnop
    rw [step_of_pOtherInstr_some hfetch hi hcond hsecond (pOtherInstr_nop ho)]
    exact endStep_applyOther_nop _ hfits
  case user =>
    have hask := pOtherInstr_user (passed := conditionHolds cond s.flags) (hw2 := hw2) hi ho
    simp only [otherView] at hask
    split
    · rename_i hnone
      exact step_of_pOtherInstr_none hfetch hi hcond hsecond (hask.trans hnone)
    · rename_i e hsome
      exact step_of_pOtherInstr_some hfetch hi hcond hsecond (hask.trans hsome)

end Sys2Proof.Machine
end

section
/-! PROOF. The state statements: what a step keeps of the state (the invariant, the flags, `other`), what it does not read,
the launches that have the invariant, the CPSR view, the slots of an `IT`, and `IT` at the top of the address space. First
the facts about the ITSTATE machine, the step and `IT`, then the statements. -/

namespace Sys2Proof.Machine

/-! ### The ITSTATE machine -/

theorem blockLength_bounds : ∀ {mask : Mask}, mask ≠ 0#4 → 1 ≤ blockLength mask ∧ blockLength mask ≤ 4 := by decide

@[simp] theorem itMask_itOperand (firstcond : Cond) (mask : Mask) : itMask (itOperand firstcond mask) = mask := by
  show (firstcond ++ mask).extractLsb' 0 4 = mask
  rw [BitVec.extractLsb'_append_eq_of_add_le (by omega), BitVec.extractLsb'_eq_self]

/-- What an `IT` writes is the state of a slot (R61, R87). -/
theorem inITBlock_itOperand (firstcond : Cond) {mask : Mask} (hm : mask ≠ 0#4) :
    inITBlock (itOperand firstcond mask) = true := by
  simp [inITBlock, hm]

/-- Inside a block `PSTATE.IT` is none of the fifteen values, whose mask is zero (R24). -/
theorem consistent_of_inITBlock {b : ITBits} (h : inITBlock b = true) : inconsistentIT b = false := by
  simp_all [inITBlock, inconsistentIT]

theorem ne_zero_of_inITBlock {b : ITBits} (h : inITBlock b = true) : b ≠ 0#8 := by
  rintro rfl
  revert h
  decide

/-- `ITAdvance()` makes no value of R24 of a consistent one (R107). -/
theorem consistent_itAdvance : ∀ b : ITBits, inconsistentIT b = false → inconsistentIT (itAdvance b) = false := by
  decide

/-- What a slot of a block sees has the slot's condition and a mask that is not yet zero (R101, R114). -/
theorem slotITSTATE_fields {firstcond : Cond} {mask : Mask} {k : Nat} (h1 : 1 ≤ k) (hk : k ≤ blockLength mask) :
    itCond (slotITSTATE firstcond mask k) = slotCond firstcond mask k ∧
      inITBlock (slotITSTATE firstcond mask k) = true := by
  have hall : ∀ (firstcond : Cond) (mask : Mask) (j : Fin 5), 1 ≤ j.val → j.val ≤ blockLength mask →
      itCond (slotITSTATE firstcond mask j) = slotCond firstcond mask j ∧
        inITBlock (slotITSTATE firstcond mask j) = true := by decide
  have hk5 : k < 5 := by simp only [blockLength] at hk; omega
  exact hall firstcond mask ⟨k, hk5⟩ h1 hk

/-- `CurrentCond()` inside a block (R105). -/
theorem currentCond_of_inITBlock {b : ITBits} (h : inITBlock b = true) : currentCond b = some (itCond b) := if_pos h

/-! ### The step -/

/-- Everything a next state of a fetched halfword can be (R102): the no-operation of a bad `IT`, the Execute lines of an
`IT`, or what an instruction that is not `IT` leaves. -/
theorem runHalf_next {hw : Half} {s u : State} (h : runHalf hw s = .next u) :
    (isIT hw = true ∧ u = s.setPC (s.pc + 2#32)) ∨
      (isIT hw = true ∧ maskField hw ≠ 0#4 ∧
        u = ((s.setIT (itOperand (firstcondOf hw) (maskField hw))).setShouldAdvanceIT false).setPC (s.pc + 2#32)) ∨
      (isIT hw = false ∧ otherInstr hw s = .next u) := by
  obtain ⟨hi, hm, hrun⟩ | ⟨hi, hrun⟩ := runHalf_cases hw s <;> rw [hrun] at h
  · obtain ⟨-, -, ⟨-, -, hu⟩ | ⟨-, hu⟩⟩ := execIT_next hm h
    · exact .inl ⟨hi, hu⟩
    · exact .inr (.inl ⟨hi, hm, hu⟩)
  · exact .inr (.inr ⟨hi, h⟩)

/-- An instruction keeps the invariant, before ITSTATE advances (R22, R115). -/
theorem runHalf_keeps_inv {hw : Half} {s u : State} (hs : Inv s) (h : runHalf hw s = .next u) : Inv u := by
  obtain ⟨hpc, hit, htext⟩ := hs
  obtain ⟨-, rfl⟩ | ⟨-, hm, rfl⟩ | ⟨-, hother⟩ := runHalf_next h
  · exact ⟨even_add hpc rfl, hit, htext⟩
  · exact ⟨even_add hpc rfl, consistent_of_inITBlock (inITBlock_itOperand _ hm), htext⟩
  · obtain ⟨hit', -, htext', -⟩ := otherInstr_frame hother
    exact ⟨otherInstr_even hother hpc, hit' ▸ hit, htext' ▸ htext⟩

theorem advanceIfDue_keeps_inv {u : State} (hu : Inv u) : Inv (advanceIfDue u) := by
  obtain ⟨hpc, hit, htext⟩ := hu
  simp only [advanceIfDue]
  split
  · exact ⟨hpc, consistent_itAdvance u.it hit, htext⟩
  · exact ⟨hpc, hit, htext⟩

theorem setShouldAdvanceIT_keeps_inv {s : State} (hs : Inv s) (b : Bool) : Inv (s.setShouldAdvanceIT b) :=
  ⟨hs.aligned, hs.consistent, hs.textForm⟩

/-- Settles O29: the instruction keeps the invariant from the state the step begins it in, and so does the advance of
ITSTATE. -/
theorem stepKeepsInvariant : Obligations.StepKeepsInvariant := by
  intro s t hs h
  obtain ⟨rfl, -⟩ | ⟨hw, u, -, -, -, hrun, rfl⟩ := step_next h
  · exact hs
  · exact advanceIfDue_keeps_inv (runHalf_keeps_inv (setShouldAdvanceIT_keeps_inv hs true) hrun)

/-- Settles O28: the cause of that refusal is an odd pc. -/
theorem invariantExcludesOddFetch : Obligations.InvariantExcludesOddFetch := by
  intro s a hs h
  obtain ⟨rfl, hodd⟩ := stepRefusesOnlyForItsCause s (.oddFetch a) h
  rw [hs.aligned] at hodd
  cases hodd

/-- Settles O19: the test of R24 is the first of the step. -/
theorem inconsistentITSTATEFaultsFirst : Obligations.InconsistentITSTATEFaultsFirst := by
  intro s hmask hcond
  have hinc : inconsistentIT s.it = true := by simp [inconsistentIT, itMask, itCond, hmask, hcond]
  simp [step, beginStep, hinc, raiseUnpredictable]

@[simp] theorem State.setShouldAdvanceIT_twice (s : State) (b c : Bool) :
    (s.setShouldAdvanceIT b).setShouldAdvanceIT c = s.setShouldAdvanceIT c := rfl

/-- The start of a step sets `ShouldAdvanceIT` before anything reads it (R27), unless the run is over. -/
theorem beginStep_setShouldAdvanceIT {s : State} (b : Bool) (h : isFinal s = false) :
    beginStep (s.setShouldAdvanceIT b) = beginStep s := by
  have hnot : s.pc = s.params.endAddr → s.it ≠ 0#8 := by simpa [isFinal] using h
  by_cases hend : s.pc = s.params.endAddr
  · simp [beginStep, hend, hnot hend]
  · simp [beginStep, hend]

/-- Settles O22: the two steps start the same. -/
theorem stepIgnoresShouldAdvanceIT : Obligations.StepIgnoresShouldAdvanceIT := by
  intro s b h
  simp only [step, beginStep_setShouldAdvanceIT b h]

/-! ### The flags and `other` -/

/-- `s` and `t` have the same flags and the same `other`. -/
def SameData (s t : State) : Prop := t.flags = s.flags ∧ t.other = s.other

/-- A failed condition leaves the flags and `other` (R108). -/
theorem applyOther_failed_data {hw : Half} {e : OtherEffect} {s u : State} (h : applyOther hw false e s = .next u) :
    SameData s u := by
  obtain ⟨-, -, rfl⟩ | ⟨hpass, -⟩ | ⟨g, hpass, -⟩ := applyOther_next h
  · exact ⟨rfl, rfl⟩
  · cases hpass
  · cases hpass

/-- What `P_OtherInstr` leaves of the flags and `other` when it is not the user's: all of them (R115). -/
theorem otherInstr_data_of_not_user {hw : Half} {s u : State} (ho : s.params.otherInstr ≠ .user)
    (h : otherInstr hw s = .next u) : SameData s u := by
  obtain ⟨cond, e, -, he, happly⟩ := otherInstr_next h
  obtain ⟨hw2, e', -, hask, he'⟩ | ⟨hw2, -, -, he'⟩ | ⟨r, -, he'⟩ :=
    otherEffect_cases hw (conditionHolds cond s.flags) s <;> rw [he'] at he <;> cases he
  obtain ⟨-, ⟨-, -, rfl⟩ | ⟨huser, -⟩⟩ := pOtherInstr_some hask
  · rw [applyOther_nop] at happly
    obtain ⟨-, rfl⟩ := advancePC_next happly
    exact ⟨rfl, rfl⟩
  · exact absurd huser ho

theorem otherInstr_data_of_failed {hw : Half} {cond : Cond} {s u : State} (hcond : currentCond s.it = some cond)
    (hfail : conditionHolds cond s.flags = false) (h : otherInstr hw s = .next u) : SameData s u := by
  obtain ⟨cond', e, hcond', -, happly⟩ := otherInstr_next h
  obtain rfl : cond = cond' := Option.some.inj (hcond.symm.trans hcond')
  rw [hfail] at happly
  exact applyOther_failed_data happly

/-- A step keeps the flags and `other` if the instruction that is not `IT`, where it runs one, does (R90). -/
theorem step_data {s t : State} (h : step s = .next t)
    (hother : ∀ hw u, fetch16 s.text s.pc = .ok hw → isIT hw = false →
      otherInstr hw (s.setShouldAdvanceIT true) = .next u → SameData (s.setShouldAdvanceIT true) u) :
    SameData s t := by
  obtain ⟨rfl, -⟩ | ⟨hw, u, -, -, hf, hrun, rfl⟩ := step_next h
  · exact ⟨rfl, rfl⟩
  · obtain ⟨-, hflags, hoth, -⟩ := advanceIfDue_frame u
    simp only [SameData, hflags, hoth]
    obtain ⟨-, rfl⟩ | ⟨-, -, rfl⟩ | ⟨hi, ho⟩ := runHalf_next hrun
    · exact ⟨rfl, rfl⟩
    · exact ⟨rfl, rfl⟩
    · exact hother hw u hf hi ho

/-- Settles O15: in each of the three cases the instruction that is not `IT` keeps the flags and `other`, or there is
none. -/
theorem flagsAndOtherKeptButByOtherInstr : Obligations.FlagsAndOtherKeptButByOtherInstr := by
  refine fun s t h => ⟨fun ho => step_data h ?notUser, fun hw hf hi => step_data h ?isIT,
    fun cond hcond hfail => step_data h ?failed⟩
  case notUser => exact fun hw u _ _ hu => otherInstr_data_of_not_user ho hu
  case isIT =>
    intro hw' u hf' hi'
    obtain rfl : hw = hw' := Except.ok.inj (hf.symm.trans hf')
    rw [hi] at hi'
    cases hi'
  case failed => exact fun hw u _ _ hu => otherInstr_data_of_failed hcond hfail hu

/-! ### Launches -/

/-- An `IT` that sets ITSTATE under the run's parameters has the same slots among those a branch must not land on: only
`FAULT` is read otherwise there, and under `FAULT` the `IT` is good (R112, log 16). -/
theorem blockSlots_subset_forSlots {p : Params} {m : Memory} {a b : Addr} (h : b ∈ blockSlots p m a) :
    b ∈ blockSlots p.forSlots m a := by
  obtain ⟨hw, hf, hsets, hb⟩ := mem_blockSlots h
  obtain ⟨hi, hexec, hfits, hitd⟩ := (setsBlock_iff p m a hw).1 hsets
  have hexec' : badCondition (firstcondOf hw) (maskField hw) = false ∨ p.forSlots.cuIT = .execute :=
    hexec.imp_right fun hcu => by simp [Params.forSlots, hcu]
  rw [blockSlots_of_setsBlock hf ((setsBlock_iff p.forSlots m a hw).2 ⟨hi, hexec', hfits, hitd⟩)]
  exact hb

theorem mem_itSlots_of_blockSlots {s : State} {a b : Addr} (ha : a ∈ s.params.its)
    (hb : b ∈ blockSlots s.params s.text a) : b ∈ s.itSlots :=
  List.mem_flatMap.2 ⟨a, ha, blockSlots_subset_forSlots hb⟩

/-- A launch inside a block is one in the sense of R103 (R113). -/
theorem InsideBlock.inITBlock {s : State} (h : InsideBlock s) : inITBlock s.it = true := by
  obtain ⟨a, firstcond, mask, k, -, -, -, -, h1, hk, -, hit⟩ := h
  exact hit ▸ (slotITSTATE_fields h1 hk).2

theorem InsideBlock.mem_itSlots {s : State} (h : InsideBlock s) : s.pc ∈ s.itSlots := by
  obtain ⟨a, firstcond, mask, k, ha, -, -, -, -, -, hslot, -⟩ := h
  exact mem_itSlots_of_blockSlots ha (List.mem_of_getElem? hslot)

/-- `PSTATE.IT` of a legal launch is consistent, inside a block or not (R24, R141). -/
theorem LegalLaunch.inv {s : State} (h : LegalLaunch s) : Inv s := by
  refine ⟨h.aligned, ?_, h.textForm⟩
  obtain ⟨hzero, -⟩ | hinside := h.itstate
  · rw [hzero]; decide
  · exact consistent_of_inITBlock hinside.inITBlock

/-- Settles O31: of the two ways a launch is legal the value of `PSTATE.IT` says which it is. -/
theorem legalLaunchHasInvariant : Obligations.LegalLaunchHasInvariant := by
  intro s h
  refine ⟨h.inv, fun hzero => ?clean, fun hne => ?inside⟩
  case clean =>
    obtain ⟨-, hpc⟩ | hinside := h.itstate
    · exact hpc
    · exact absurd hzero (ne_zero_of_inITBlock hinside.inITBlock)
  case inside =>
    have hinside : InsideBlock s := h.itstate.resolve_left fun hclean => hne hclean.1
    refine ⟨hinside.mem_itSlots, hinside.inITBlock, ?_⟩
    have hcur := currentCond_of_inITBlock hinside.inITBlock
    obtain ⟨a, firstcond, mask, k, ha, -, hf, -, h1, hk, hslot, hit⟩ := hinside
    refine ⟨firstcond, mask, k, ?_, h1, hk, a, ha, hf, hslot⟩
    rw [hcur, hit, (slotITSTATE_fields h1 hk).1]

/-- No halfword is fetched where no byte is listed (R41). -/
theorem fetch16_nil (a : Addr) (hw : Half) : fetch16 [] a ≠ .ok hw := by
  intro h
  obtain ⟨-, lo, hi, hlo, -⟩ := fetch16_ok h
  cases hlo

theorem reset_legalLaunch : LegalLaunch State.reset where
  aligned := by decide
  itstate := .inl ⟨rfl, List.not_mem_nil⟩
  textForm := State.reset_text_wf
  listed := ⟨fun _ ha => absurd ha List.not_mem_nil, fun _ a hw _ _ hf => absurd hf (fetch16_nil a hw)⟩

/-- Settles O30: at reset nothing is listed, neither text nor `IT`s. -/
theorem resetIsLegalLaunch : Obligations.ResetIsLegalLaunch :=
  ⟨reset_legalLaunch, reset_legalLaunch.inv⟩

/-! ### The slots of an `IT` -/

/-- The masks and values of R86 are its fields. -/
theorem itdForbids_iff (next : Half) : itdForbids next = true ↔ ITDListed next := by
  simp only [itdForbids, itdPatterns, ITDListed, List.any_cons, List.any_nil, Bool.or_eq_true, beq_iff_eq,
    Bool.false_eq_true, or_false]
  refine or_congr ?_ (or_congr ?_ (or_congr ?_ (or_congr ?_ (or_congr ?_ ?_)))) <;>
    simp only [BitVec.eq_of_getLsbD_eq_iff, Nat.forall_lt_succ_right, BitVec.getLsbD_extractLsb', BitVec.getLsbD_and] <;>
    simp [and_assoc]
  · tauto
  · tauto

theorem itdForbids_eq_false_iff (next : Half) : itdForbids next = false ↔ ¬ ITDListed next := by
  rw [← itdForbids_iff, Bool.not_eq_true]

theorem length_lineOf_le (m : Memory) (n : Nat) (a : Addr) : (lineOf m n a).length ≤ n := by
  induction n generalizing a with
  | zero => exact le_rfl
  | succ n ih =>
    simp only [lineOf, List.length_cons, Nat.add_le_add_iff_right]
    split
    · split
      · exact ih _
      · exact Nat.zero_le n
    · exact Nat.zero_le n

/-- A line of at least one instruction starts where it starts. -/
theorem head?_lineOf (m : Memory) {n : Nat} (a : Addr) (hn : 1 ≤ n) : (lineOf m n a).head? = some a := by
  obtain ⟨n, rfl⟩ := Nat.exists_eq_add_of_le' hn
  rfl

theorem blockSlots_eq_nil {p : Params} {m : Memory} {a : Addr} {hw : Half} (hf : fetch16 m a = .ok hw)
    (hs : setsBlock p m a hw ≠ true) : blockSlots p m a = [] := by
  simp [blockSlots, hf, hs]

/-- A byte that is not in the text is part of no fetched halfword (R41). -/
theorem fetch16_ne_ok {m : Memory} {a : Addr} (h : m.read a = none ∨ m.read (a + 1#32) = none) (hw : Half) :
    fetch16 m a ≠ .ok hw := by
  intro hf
  obtain ⟨-, lo, hi, hlo, hhi, -⟩ := fetch16_ok hf
  simp [hlo, hhi] at h

theorem maskField_ne_zero {hw : Half} (h : isIT hw = true) : maskField hw ≠ 0#4 := by
  simp only [isIT, Bool.and_eq_true, bne_iff_ne] at h
  exact h.2

/-- Settles O40: the line from `a + 2` where the `IT` sets ITSTATE; in the other cases a condition of `setsBlock` fails. -/
theorem blockSlotsShape : Obligations.BlockSlotsShape := by
  intro p m a hw hf hi
  obtain ⟨hlen1, hlen4⟩ := blockLength_bounds (maskField_ne_zero hi)
  have hnil : (setsBlock p m a hw = true → False) → blockSlots p m a = [] := blockSlots_eq_nil hf
  simp only [setsBlock_iff] at hnil
  refine ⟨fun hfits hexec hitd => ?sets, fun hwrap => hnil ?wrap, fun hbad hcu => hnil ?bad,
    fun hitd hmask => hnil ?long, fun hitd next hnext hlisted => hnil ?listed, fun hitd hnone => hnil ?noText⟩
  case sets =>
    have hitd' : p.itd = false ∨
        (maskField hw = 0b1000#4 ∧ ∃ next, fetch16 m (a + 2#32) = .ok next ∧ itdForbids next = false) := by
      simpa only [itdForbids_eq_false_iff] using hitd
    have hhead := head?_lineOf m (a + 2#32) hlen1
    rw [blockSlots_of_setsBlock hf ((setsBlock_iff p m a hw).2 ⟨hi, hexec, hfits, hitd'⟩)]
    exact ⟨hhead, List.length_pos_of_mem (List.mem_of_head? hhead), length_lineOf_le m _ _, hlen1, hlen4⟩
  case wrap =>
    rintro ⟨-, -, hfits, -⟩
    omega
  case bad =>
    rintro ⟨-, hgood | hexec, -⟩
    · rw [hbad] at hgood; cases hgood
    · exact hcu hexec
  case long =>
    rintro ⟨-, -, -, hoff | ⟨hone, -⟩⟩
    · rw [hitd] at hoff; cases hoff
    · exact hmask hone
  case listed =>
    rintro ⟨-, -, -, hoff | ⟨-, next', hnext', hallowed⟩⟩
    · rw [hitd] at hoff; cases hoff
    · obtain rfl : next = next' := Except.ok.inj (hnext.symm.trans hnext')
      exact (itdForbids_eq_false_iff next).1 hallowed hlisted
  case noText =>
    rintro ⟨-, -, -, hoff | ⟨-, next, hnext, -⟩⟩
    · rw [hitd] at hoff; cases hoff
    · exact fetch16_ne_ok hnone next hnext

/-! ### The CPSR view -/

/-- The flags, bit 27 and `T` in the view (R26, R29). -/
theorem cpsrView_bits (rest : Word) (s : State) :
    (cpsrView rest s).getLsbD 31 = s.flags.n ∧ (cpsrView rest s).getLsbD 30 = s.flags.z ∧
      (cpsrView rest s).getLsbD 29 = s.flags.c ∧ (cpsrView rest s).getLsbD 28 = s.flags.v ∧
      (cpsrView rest s).getLsbD 5 = true ∧ (cpsrView rest s).getLsbD 27 = rest.getLsbD 27 := by
  simp only [cpsrView, BitVec.getLsbD_append]
  simp

/-- The fields of more than one bit in the view (R26). -/
theorem cpsrView_fields (rest : Word) (s : State) :
    (cpsrView rest s).extractLsb' 25 2 = s.it.extractLsb' 0 2 ∧
      (cpsrView rest s).extractLsb' 10 6 = s.it.extractLsb' 2 6 ∧
      (cpsrView rest s).extractLsb' 16 9 = rest.extractLsb' 16 9 ∧
      (cpsrView rest s).extractLsb' 6 4 = rest.extractLsb' 6 4 ∧
      (cpsrView rest s).extractLsb' 0 5 = rest.extractLsb' 0 5 := by
  simp only [cpsrView]
  refine ⟨?itLow, ?itHigh, ?rest16, ?rest6, ?rest0⟩
  case rest0 => rw [BitVec.extractLsb'_append_eq_of_add_le (by decide), BitVec.extractLsb'_eq_self]
  all_goals
    rw [BitVec.extractLsb'_append_eq_of_le (by decide)]
    simp only [BitVec.extractLsb'_append_eq_of_add_le, BitVec.extractLsb'_append_eq_of_le, Nat.reduceLeDiff,
      Nat.reduceSub, BitVec.extractLsb'_eq_self]

theorem cpsrFlags_cpsrView (rest : Word) (s : State) : cpsrFlags (cpsrView rest s) = s.flags := by
  obtain ⟨hn, hz, hc, hv, -⟩ := cpsrView_bits rest s
  simp only [cpsrFlags, hn, hz, hc, hv]

/-- `PSTATE.IT` is put together again from its two parts (R26). -/
theorem cpsrIT_cpsrView (rest : Word) (s : State) : cpsrIT (cpsrView rest s) = s.it := by
  have hsplit : ∀ b : ITBits, (b.extractLsb' 2 6 : BitVec 6) ++ (b.extractLsb' 0 2 : BitVec 2) = b := by decide
  obtain ⟨hlow, hhigh, -⟩ := cpsrView_fields rest s
  simp only [cpsrIT, hlow, hhigh, hsplit]

/-- Settles O54: the layout of the view, and the two fields read back from it. -/
theorem cpsrHoldsTheFields : Obligations.CPSRHoldsTheFields := by
  intro s t rest
  obtain ⟨hn, hz, hc, hv, ht, h27⟩ := cpsrView_bits rest s
  obtain ⟨hlow, hhigh, h16, h6, h0⟩ := cpsrView_fields rest s
  refine ⟨hn, hz, hc, hv, hlow, hhigh, ht, h27, h16, h6, h0, ?_⟩
  simp only [State.restoreCPSR, cpsrFlags_cpsrView, cpsrIT_cpsrView]
  rfl

/-! ### `IT` outside a block -/

section ITOutside

variable {firstcond : Cond} {mask : Mask} {s : State}

/-- What an `IT` outside a block with a bad condition does where `P_CU_IT` does not have it execute (R83, R92). -/
theorem execIT_bad (hm : mask ≠ 0#4) (hin : inITBlock s.it = false) (hbad : badCondition firstcond mask = true) :
    (s.params.cuIT = .fault →
      execIT firstcond mask s = .fault (.unpredictable (.itBadCondition s.pc (itHalf firstcond mask)))) ∧
    (s.params.cuIT = .undef →
      execIT firstcond mask s = .fault (.undefined (.itBadCondition s.pc (itHalf firstcond mask)))) ∧
    (s.params.cuIT = .nop → execIT firstcond mask s = advancePC 2 s) := by
  refine ⟨fun hcu => ?_, fun hcu => ?_, fun hcu => ?_⟩ <;>
    simp [execIT, hm, hin, hbad, hcu, raiseUnpredictable, raiseUndefined]

/-- An `IT` outside a block whose condition is good or executed runs the Execute lines (R83, R92). -/
theorem execIT_executes (hm : mask ≠ 0#4) (hin : inITBlock s.it = false)
    (hexec : badCondition firstcond mask = false ∨ s.params.cuIT = .execute) :
    execIT firstcond mask s = executeIT firstcond mask s := by
  cases hbad : badCondition firstcond mask with
  | false => simp [execIT, hm, hin, hbad]
  | true =>
    have hcu : s.params.cuIT = .execute := hexec.resolve_left (by simp [hbad])
    simp [execIT, hm, hin, hbad, hcu]

/-- Under ITD controls a block of more than one instruction is disabled, whatever follows (R86). -/
theorem executeIT_disabled_long (hitd : s.params.itd = true) (hmask : mask ≠ 0b1000#4) :
    executeIT firstcond mask s = .fault (.undefined (.itDisabled s.pc (itHalf firstcond mask))) := by
  simp [executeIT, checkITEnabled, hitd, hmask, raiseUndefined]

/-- Under ITD controls the Execute lines need the next halfword of a one-instruction block (R86). -/
theorem executeIT_no_next {r : Refusal} (hitd : s.params.itd = true) (hnext : fetchAfter 2 s = .error r) :
    executeIT firstcond 0b1000#4 s = .refused r := by
  simp [executeIT, checkITEnabled, hitd, hnext]

/-- Without ITD controls the Execute lines are `IT`'s effect and the advance of the pc (R86 to R89). -/
theorem executeIT_itd_off (hitd : s.params.itd = false) :
    executeIT firstcond mask s = advancePC 2 ((s.setIT (itOperand firstcond mask)).setShouldAdvanceIT false) := by
  simp [executeIT, checkITEnabled, hitd]

end ITOutside

/-- There is no address to advance to or to fetch from (R22). -/
theorem advancePC_wraps {len : Nat} {s : State} (h : ¬ s.pc.toNat + len < 2 ^ 32) :
    advancePC len s = .refused .pcWrap := if_neg h

theorem fetchAfter_wraps {k : Nat} {s : State} (h : ¬ s.pc.toNat + k < 2 ^ 32) :
    fetchAfter k s = .error .pcWrap := if_neg h

/-- Settles O5: the faults of R83 and of the mask under ITD controls come before the pc is looked at; every other way ends
at an advance or a fetch past the top. -/
theorem itAtTopOfAddressSpace : Obligations.ITAtTopOfAddressSpace := by
  intro firstcond mask s hpc hm hin
  have hwrap : ¬ s.pc.toNat + 2 < 2 ^ 32 := by rw [hpc]; decide
  refine ⟨fun hbad => ?bad, fun hexec => ⟨fun hitd hmask => ?long, fun hoff => ?wraps⟩⟩
  case bad =>
    obtain ⟨hfault, hundef, hnop⟩ := execIT_bad hm hin hbad
    exact ⟨hfault, hundef, fun hcu => (hnop hcu).trans (advancePC_wraps hwrap)⟩
  case long => exact (execIT_executes hm hin hexec).trans (executeIT_disabled_long hitd hmask)
  case wraps =>
    refine (execIT_executes hm hin hexec).trans ?_
    cases hitd : s.params.itd with
    | false => exact (executeIT_itd_off hitd).trans (advancePC_wraps hwrap)
    | true =>
      obtain rfl : mask = 0b1000#4 := hoff.resolve_left (by simp [hitd])
      exact executeIT_no_next hitd (fetchAfter_wraps hwrap)

end Sys2Proof.Machine
end

section
/-! PROOF. The memory statements: the byte order of the fetch (R42), the text that nothing but a launch writes (R49), a fetch
outside it (R41), and the step over a halfword that is fetched. First the fetch as a function of the two bytes it reads, then
the statements. -/

namespace Sys2Proof.Machine

/-! ### The bytes of a halfword -/

/-- A halfword is put together again from its stored bytes (R42). -/
theorem halfOfBytes_bytes (hw : Half) : halfOfBytes (hw.extractLsb' 0 8) (hw.extractLsb' 8 8) = hw := by
  rw [halfOfBytes, BitVec.extractLsb'_append_extractLsb'_eq_extractLsb' (by decide)]
  exact BitVec.extractLsb'_eq_self

/-- The stored bytes of an `IT` (R42, R60). -/
theorem encodeBytes_it (firstcond : Cond) (mask : Mask) :
    encodeBytes (.it firstcond mask) = [firstcond ++ mask, 0xBF#8] := by
  have hall : ∀ c m : BitVec 4, bytesOfHalf (itHalf c m) = [c ++ m, 0xBF#8] := by decide
  exact hall firstcond mask

/-- An `IT` is one halfword (R61, R62). -/
theorem isIT_of_isWide {hw : Half} (hwide : isWide hw = true) : isIT hw = false := by
  rw [Bool.eq_false_iff]
  intro hi
  obtain ⟨-, -, hnarrow⟩ := Laws.OneHalfword.it (firstcondOf hw) (maskField hw)
  rw [encodeHalf, itHalf_of_isIT hi, hwide] at hnarrow
  cases hnarrow

/-! ### The fetch -/

/-- The fetch of two bytes the text holds (R41, R42). -/
theorem fetch16_of_reads {m : Memory} {a : Addr} {lo hi : Byte} (heven : a.getLsbD 0 = false)
    (hlo : m.read a = some lo) (hhi : m.read (a + 1#32) = some hi) : fetch16 m a = .ok (halfOfBytes lo hi) := by
  simp only [fetch16, heven, hlo, hhi, Bool.false_eq_true, if_false]

/-- The fetch where one of the two bytes is missing (R41): of the reasons to refuse and of the answers no other is left. -/
theorem fetch16_of_missing {m : Memory} {a : Addr} (heven : a.getLsbD 0 = false)
    (hnone : m.read a = none ∨ m.read (a + 1#32) = none) : fetch16 m a = .error (.noText a) := by
  cases hf : fetch16 m a with
  | ok hw =>
    obtain ⟨-, lo, hi, hlo, hhi, -⟩ := fetch16_ok hf
    simp [hlo, hhi] at hnone
  | error r =>
    obtain ⟨-, hodd⟩ | ⟨rfl, -⟩ := fetch16_error hf
    · rw [heven] at hodd; cases hodd
    · rfl

/-- Settles O48: the halfword is `hi : lo`, and its two halves are read off. -/
theorem fetchIsLittleEndian : Obligations.FetchIsLittleEndian := by
  refine ⟨fun m a lo hi heven hlo hhi => ⟨hi ++ lo, fetch16_of_reads heven hlo hhi, ?low, ?high⟩, encodeBytes_it⟩
  case low => rw [BitVec.extractLsb'_append_eq_of_add_le (by decide), BitVec.extractLsb'_eq_self]
  case high => rw [BitVec.extractLsb'_append_eq_of_le (by decide)]; exact BitVec.extractLsb'_eq_self

/-! ### A halfword placed in the text -/

/-- The two writes that place a halfword (R42). -/
theorem Memory.writeBytes_half (m : Memory) (a : Addr) (hw : Half) :
    m.writeBytes a (bytesOfHalf hw) = (m.write a (hw.extractLsb' 0 8)).write (a + 1#32) (hw.extractLsb' 8 8) := rfl

theorem fetch16_writeBytes_half (m : Memory) {a : Addr} (hw : Half) (heven : a.getLsbD 0 = false) :
    fetch16 (m.writeBytes a (bytesOfHalf hw)) a = .ok hw := by
  rw [Memory.writeBytes_half]
  have hlo : ((m.write a (hw.extractLsb' 0 8)).write (a + 1#32) (hw.extractLsb' 8 8)).read a =
      some (hw.extractLsb' 0 8) := by
    rw [Memory.read_write_other _ _ (succ_ne_self a).symm, Memory.read_write_same]
  rw [fetch16_of_reads heven hlo (Memory.read_write_same _ _ _), halfOfBytes_bytes]

theorem Memory.read_writeBytes_half_other (m : Memory) {a b : Addr} (hw : Half) (hb : b ≠ a) (hb1 : b ≠ a + 1#32) :
    (m.writeBytes a (bytesOfHalf hw)).read b = m.read b := by
  rw [Memory.writeBytes_half, Memory.read_write_other _ _ hb1.symm, Memory.read_write_other _ _ hb.symm]

/-- Settles O49: a read after the two writes, at their addresses and at every other. -/
theorem placedHalfwordIsFetched : Obligations.PlacedHalfwordIsFetched :=
  fun m _ hw heven => ⟨fetch16_writeBytes_half m hw heven, fun _ hb hb1 => m.read_writeBytes_half_other hw hb hb1⟩

/-! ### What the step leaves of the text and the parameters -/

/-- No instruction writes the text or the parameters (R49, R115 (a), R141). -/
theorem runHalf_sameRun {hw : Half} {s u : State} (h : runHalf hw s = .next u) : SameRun s u := by
  obtain ⟨-, rfl⟩ | ⟨-, -, rfl⟩ | ⟨-, hother⟩ := runHalf_next h
  · exact ⟨rfl, rfl⟩
  · exact ⟨rfl, rfl⟩
  · obtain ⟨-, -, htext, hparams⟩ := otherInstr_frame hother
    exact ⟨hparams, htext⟩

/-- Neither the start nor the end of a step writes them either. -/
theorem step_sameRun {s t : State} (h : step s = .next t) : SameRun s t := by
  obtain ⟨rfl, -⟩ | ⟨hw, u, -, -, -, hrun, rfl⟩ := step_next h
  · exact ⟨rfl, rfl⟩
  · obtain ⟨hparams, htext⟩ := runHalf_sameRun hrun
    obtain ⟨-, -, -, htext', hparams', -⟩ := advanceIfDue_frame u
    exact ⟨hparams'.trans hparams, htext'.trans htext⟩

/-- Settles O32: the text is the same list, so every address reads the same. -/
theorem stepKeepsTextAndParameters : Obligations.StepKeepsTextAndParameters := by
  intro s t h
  obtain ⟨hparams, htext⟩ := step_sameRun h
  exact ⟨⟨hparams, htext⟩, fun a => by rw [htext]⟩

/-! ### The step and its fetch -/

/-- A step whose fetch refuses is refused so (R41, R102). -/
theorem step_of_fetch16_error {s : State} {r : Refusal} (hc : inconsistentIT s.it = false)
    (hp : s.pc ≠ s.params.endAddr) (hf : fetch16 s.text s.pc = .error r) : step s = .refused r := by
  simp [step, beginStep, hc, hp, hf]

/-- Settles O21: the fetch is refused, and nothing before it ends the step. -/
theorem fetchOutsideTextRefused : Obligations.FetchOutsideTextRefused :=
  fun _ hc hp heven hnone => step_of_fetch16_error hc hp (fetch16_of_missing heven hnone)

/-- The instruction of a table word is that of its halfword (R42, R60). -/
theorem decodeHalf_of_decodeTableWord {nbits w : Nat} {i : Instr} (h : decodeTableWord nbits w = some i) :
    decodeHalf (BitVec.ofNat 16 (w % 2 ^ nbits)) = .ok i := by
  simp only [decodeTableWord, tableBytes, bytesOfHalf, decode, halfOfBytes_bytes] at h
  cases hd : decodeHalf (BitVec.ofNat 16 (w % 2 ^ nbits)) with
  | ok j => simpa [hd] using h
  | error e => simp [hd] at h

theorem runHalf_of_decodeHalf {hw : Half} {i : Instr} (s : State) (h : decodeHalf hw = .ok i) :
    runHalf hw s = exec i s := by
  simp only [runHalf, h]

/-- A load at the pc moves a `P_END` that stood there, so the run is not over (log 13). -/
theorem State.withFetchWord_pc_ne_end (s : State) (nbits w : Nat) :
    (s.withFetchWord nbits w).pc ≠ (s.withFetchWord nbits w).params.endAddr := by
  show s.pc ≠ if s.params.endAddr = s.pc then s.pc + 2#32 else s.params.endAddr
  split
  · bv_omega
  · exact Ne.symm (by assumption)

/-- A table word stored where the step fetches is fetched by it (R41). -/
theorem fetches_withFetchWord {s : State} (nbits w : Nat) (hc : inconsistentIT s.it = false)
    (heven : s.pc.getLsbD 0 = false) : Fetches (s.withFetchWord nbits w) (BitVec.ofNat 16 (w % 2 ^ nbits)) :=
  ⟨hc, s.withFetchWord_pc_ne_end nbits w, fetch16_writeBytes_half s.text _ heven⟩

/-- Settles O50: the stored word is fetched, and its halfword decodes to the instruction. -/
theorem fetchWordRunsNext : Obligations.FetchWordRunsNext := by
  intro s w i hc heven hi
  rw [step_of_fetches (fetches_withFetchWord 16 w hc heven),
    runHalf_of_decodeHalf _ (decodeHalf_of_decodeTableWord hi)]

/-! ### The instructions that are not `IT` -/

/-- Settles O56: the four parts are what the step and the second fetch answer in each case. -/
theorem stepAsksOtherInstr : Obligations.StepAsksOtherInstr :=
  fun s _ _ hfetch hi hcond =>
    ⟨fun _ _ hsecond hsome => step_of_pOtherInstr_some hfetch hi hcond hsecond hsome,
      fun _ hsecond hnone => step_of_pOtherInstr_none hfetch hi hcond hsecond hnone,
      fun hnarrow => secondHalf_narrow s hnarrow,
      fun _ hwide hfits hf => secondHalf_wide hwide hfits hf⟩

/-- A consistent `PSTATE.IT` has a current condition (R24, R105). -/
theorem exists_currentCond : ∀ b : ITBits, inconsistentIT b = false → ∃ cond, currentCond b = some cond := by
  have hall : ∀ b : ITBits, inconsistentIT b = false → (currentCond b).isSome = true := by decide
  exact fun b hb => Option.isSome_iff_exists.1 (hall b hb)

/-- A 32-bit instruction whose second fetch refuses is refused so, whatever `P_OtherInstr` and the condition are (R41,
log 6). -/
theorem step_of_second_fetch_error {s : State} {hw : Half} {r : Refusal} (hfetch : Fetches s hw)
    (hwide : isWide hw = true) (hafter : fetchAfter 2 s = .error r) : step s = .refused r := by
  obtain ⟨cond, hcond⟩ := exists_currentCond s.it hfetch.1
  have hafter' : fetchAfter 2 (s.setShouldAdvanceIT true) = .error r := hafter
  rw [step_of_fetches hfetch, runHalf_of_not_isIT _ (isIT_of_isWide hwide)]
  simp [otherInstr, hcond, otherEffect, secondHalf, hwide, hafter', endStep]

/-- Settles O57: the second fetch finds no byte, or there is no address for it. The pc was fetched from, so it is even and
so is the address after it. -/
theorem secondHalfwordOutsideTextRefused : Obligations.SecondHalfwordOutsideTextRefused := by
  intro s hw hfetch hwide
  have ⟨_, _, hf⟩ := hfetch
  refine ⟨fun hfits hnone => step_of_second_fetch_error hfetch hwide ?missing,
    fun hwrap => step_of_second_fetch_error hfetch hwide (fetchAfter_wraps (by omega))⟩
  case missing =>
    have heven : (s.pc + 2#32).getLsbD 0 = false := even_add (fetch16_ok hf).1 rfl
    exact (fetchAfter_of_fits hfits).trans (fetch16_of_missing heven hnone)

end Sys2Proof.Machine
end

section
/-! PROOF. The encoding statements: the decoder and the encoder, the classes of the halfwords `0xBF00 | b`, the assembler's
side, the excluded row and the condition table. First the three fields of a halfword, then what each function answers by its
fields, then the statements. -/

namespace Sys2Proof.Machine

/-! ### The fields of a halfword -/

@[simp] theorem opcodeOf_itHalf (firstcond : Cond) (mask : Mask) : opcodeOf (itHalf firstcond mask) = 0xBF#8 :=
  (Laws.OneHalfword.it firstcond mask).2.1

@[simp] theorem firstcondOf_itHalf (firstcond : Cond) (mask : Mask) :
    firstcondOf (itHalf firstcond mask) = firstcond := by
  simp only [firstcondOf, itHalf]
  rw [BitVec.extractLsb'_append_eq_of_le (by decide)]
  exact BitVec.extractLsb'_append_eq_right

@[simp] theorem maskField_itHalf (firstcond : Cond) (mask : Mask) : maskField (itHalf firstcond mask) = mask :=
  BitVec.extractLsb'_append_eq_right

/-- The excluded row has the form of an `IT` with mask `0000` (R63). -/
theorem miscHalf_eq_itHalf (x : BitVec 4) : miscHalf x = itHalf x 0#4 := rfl

/-- Two halfwords are the same when their three fields are (R60). -/
theorem half_eq_iff_fields {hw hw' : Half} :
    hw = hw' ↔ opcodeOf hw = opcodeOf hw' ∧ firstcondOf hw = firstcondOf hw' ∧ maskField hw = maskField hw' := by
  refine ⟨fun h => by simp [h], fun ⟨hop, hcond, hmask⟩ => ?_⟩
  rw [half_split hw, half_split hw', hop, hcond, hmask]

/-- The halfword with given fields under the opcode byte `0xBF` (R60). -/
theorem eq_itHalf_iff {hw : Half} {firstcond : Cond} {mask : Mask} :
    hw = itHalf firstcond mask ↔ opcodeOf hw = 0xBF#8 ∧ firstcondOf hw = firstcond ∧ maskField hw = mask := by
  simp [half_eq_iff_fields]

theorem isIT_iff {hw : Half} : isIT hw = true ↔ opcodeOf hw = 0xBF#8 ∧ maskField hw ≠ 0#4 := by
  simp [isIT]

/-- The test of R61 with masks: each bitwise test is a test of the fields it covers. -/
theorem isIT_iff_masked {hw : Half} :
    isIT hw = true ↔ hw &&& 0xFF00#16 = 0xBF00#16 ∧ hw &&& 0x000F#16 ≠ 0#16 := by
  have hkeepsOp : ∀ b : BitVec 8, b &&& 0xFF#8 = b := fun _ => BitVec.and_allOnes
  have hkeepsMask : ∀ m : Mask, m &&& 0xF#4 = m := fun _ => BitVec.and_allOnes
  have hop : hw &&& 0xFF00#16 = 0xBF00#16 ↔ opcodeOf hw = 0xBF#8 := by
    simp [half_eq_iff_fields, opcodeOf, firstcondOf, maskField, BitVec.extractLsb'_and, hkeepsOp]
  have hmask : hw &&& 0x000F#16 = 0#16 ↔ maskField hw = 0#4 := by
    simp [half_eq_iff_fields, opcodeOf, firstcondOf, maskField, BitVec.extractLsb'_and, hkeepsMask]
  rw [isIT_iff, hop, ne_eq, ne_eq, hmask]

/-! ### Decode and encode -/

/-- The encoded halfword of a well-formed instruction decodes to it (R60, R63). -/
theorem decodeHalf_encodeHalf {i : Instr} (hwf : i.wf = true) : decodeHalf (encodeHalf i) = .ok i := by
  cases i with
  | it firstcond mask =>
    have hmask : mask ≠ 0#4 := by simpa [Instr.wf] using hwf
    simp [encodeHalf, decodeHalf, hmask]
  | misc16 x => simp [encodeHalf, miscHalf_eq_itHalf, decodeHalf]

/-- A halfword that decodes to an instruction is the encoding of it (R61, R63, R65). -/
theorem encodeHalf_of_decodeHalf {hw : Half} {i : Instr} (h : decodeHalf hw = .ok i) :
    i.wf = true ∧ encodeHalf i = hw := by
  obtain ⟨hd, hi, hm⟩ | ⟨hd, -, hmisc⟩ | ⟨e, hd, -⟩ := decodeHalf_cases hw <;> rw [hd] at h <;> cases h
  · exact ⟨by simpa [Instr.wf] using hm, itHalf_of_isIT hi⟩
  · exact ⟨rfl, hmisc.symm⟩

/-- The bytes of a halfword are the two it is read from (R42). -/
theorem bytesOfHalf_halfOfBytes (lo hi : Byte) : bytesOfHalf (halfOfBytes lo hi) = [lo, hi] := by
  simp only [bytesOfHalf, halfOfBytes, BitVec.extractLsb'_append_eq_right, BitVec.extractLsb'_append_eq_left]

theorem decode_of_decodeHalf {hw : Half} {i : Instr} (rest : List Byte) (h : decodeHalf hw = .ok i) :
    decode (bytesOfHalf hw ++ rest) = .ok (i, rest) := by
  simp [bytesOfHalf, decode, halfOfBytes_bytes, h]

/-- The decoder answers only by the halfword of the first two bytes, and leaves the others (R41, R42). -/
theorem decode_ok {bytes rest : List Byte} {i : Instr} (h : decode bytes = .ok (i, rest)) :
    ∃ hw, decodeHalf hw = .ok i ∧ bytes = bytesOfHalf hw ++ rest := by
  match bytes with
  | [] | [_] => cases h
  | lo :: hi :: tail =>
    cases hd : decodeHalf (halfOfBytes lo hi) with
    | error e => simp [decode, hd] at h
    | ok j =>
      obtain ⟨rfl, rfl⟩ : j = i ∧ tail = rest := by simpa [decode, hd] using h
      exact ⟨_, hd, by simp [bytesOfHalf_halfOfBytes]⟩

theorem decode_encodeBytes {i : Instr} (rest : List Byte) (hwf : i.wf = true) :
    decode (encodeBytes i ++ rest) = .ok (i, rest) :=
  decode_of_decodeHalf rest (decodeHalf_encodeHalf hwf)

/-- Settles O44: both ways the halfword stands between the bytes and the instruction. -/
theorem decodeEncodeAgree : Obligations.DecodeEncodeAgree := by
  refine ⟨fun i rest hwf => decode_encodeBytes rest hwf, fun bytes rest i h => ?_⟩
  obtain ⟨hw, hd, rfl⟩ := decode_ok h
  obtain ⟨hwf, rfl⟩ := encodeHalf_of_decodeHalf hd
  exact ⟨hwf, rfl⟩

/-- The halfwords that decode to `IT`, with their fields (R61, R65). -/
theorem decodeHalf_eq_it_iff {hw : Half} {firstcond : Cond} {mask : Mask} :
    decodeHalf hw = .ok (.it firstcond mask) ↔
      isIT hw = true ∧ firstcond = firstcondOf hw ∧ mask = maskField hw := by
  obtain ⟨hd, hi, -⟩ | ⟨hd, hi, -⟩ | ⟨e, hd, hi⟩ := decodeHalf_cases hw
  · simp [hd, hi, eq_comm]
  · simp [hd, hi]
  · simp [hd, hi]

/-- Settles O45: the decoder, the masks and the fields all test what `isIT` tests. -/
theorem halfwordIsITIff : Obligations.HalfwordIsITIff := by
  intro hw
  refine ⟨Iff.trans ?decodes isIT_iff, isIT_iff_masked.symm.trans isIT_iff,
    fun firstcond mask hd => (decodeHalf_eq_it_iff.1 hd).2⟩
  case decodes => simp [decodeHalf_eq_it_iff]

/-- Settles O47: five words are encodings of their instructions; the opcode byte of the other two is not `0xBF`. -/
theorem wordsDecodeAsWritten : Obligations.WordsDecodeAsWritten :=
  ⟨decode_encodeBytes (i := .it 0b0000#4 0b0110#4) [] rfl, decode_encodeBytes (i := .it 0b1110#4 0b1000#4) [] rfl,
    decode_encodeBytes (i := .it 0b1101#4 0b0001#4) [] rfl, decode_encodeBytes (i := .misc16 0b0000#4) [] rfl,
    decode_encodeBytes (i := .misc16 0b1111#4) [] rfl, rfl, rfl⟩

/-! ### The classes of R64 -/

/-- The encodings that are constrained unpredictable, with the masks of one bit written out (R8, R82). -/
theorem badCondition_iff {firstcond : Cond} {mask : Mask} :
    badCondition firstcond mask = true ↔
      firstcond = 0b1111#4 ∨ (firstcond = 0b1110#4 ∧
        ¬ (mask = 0b1000#4 ∨ mask = 0b0100#4 ∨ mask = 0b0010#4 ∨ mask = 0b0001#4)) := by
  obtain ⟨-, hone, -⟩ := bitCountOfMask
  simp only [badCondition, Bool.or_eq_true, Bool.and_eq_true, beq_iff_eq, bne_iff_ne, ne_eq, hone]

theorem classify_itHalf (firstcond : Cond) (mask : Mask) :
    classify (itHalf firstcond mask) =
      if mask = 0#4 then .notIT
      else if badCondition firstcond mask = true then .constrainedUnpredictable else .valid := by
  by_cases hmask : mask = 0#4 <;> simp [classify, isIT, hmask]

theorem classify_eq_valid_iff {hw : Half} :
    classify hw = .valid ↔ isIT hw = true ∧ badCondition (firstcondOf hw) (maskField hw) = false := by
  cases hi : isIT hw <;> cases hbad : badCondition (firstcondOf hw) (maskField hw) <;> simp [classify, hi, hbad]

/-- A count over `n` rows of `k` numbers is the sum of the rows' counts. -/
theorem countP_range_mul (p : Nat → Bool) (n k : Nat) :
    (List.range (n * k)).countP p =
      ((List.range n).map fun c => (List.range k).countP fun m => p (c * k + m)).sum := by
  induction n with
  | zero => simp
  | succ n ih =>
    rw [Nat.succ_mul, List.range_add, List.countP_append, List.countP_map, ih, List.range_succ, List.map_append,
      List.sum_append]
    simp [Function.comp_def]

/-- How many of the sixteen masks of a condition give each class: under `1110` the four masks of one bit are valid, under
`1111` none is (R64). -/
theorem class_counts_of_condition :
    (∀ c < 16, ((List.range 16).countP fun m => classify (0xBF#8 ++ BitVec.ofNat 8 (c * 16 + m)) = .notIT) = 1) ∧
    (∀ c < 16, ((List.range 16).countP fun m => classify (0xBF#8 ++ BitVec.ofNat 8 (c * 16 + m)) = .valid) =
      if c = 15 then 0 else if c = 14 then 4 else 15) ∧
    ∀ c < 16, ((List.range 16).countP fun m =>
        classify (0xBF#8 ++ BitVec.ofNat 8 (c * 16 + m)) = .constrainedUnpredictable) =
      if c = 15 then 15 else if c = 14 then 11 else 0 := by
  decide

/-- The count of a class over the 256 low bytes, from its counts for the sixteen conditions. -/
theorem class_count_eq_sum {k : ITClass} {count : Nat → Nat}
    (h : ∀ c < 16, ((List.range 16).countP fun m => classify (0xBF#8 ++ BitVec.ofNat 8 (c * 16 + m)) = k) = count c) :
    ((List.range 256).countP fun b => classify (0xBF#8 ++ BitVec.ofNat 8 b) = k) = ((List.range 16).map count).sum :=
  (countP_range_mul (fun b => classify (0xBF#8 ++ BitVec.ofNat 8 b) = k) 16 16).trans
    (congrArg List.sum (List.map_congr_left fun c hc => h c (List.mem_range.1 hc)))

/-- Settles O46: the class by the fields, and each count as the sum over the conditions. -/
theorem halfwordClasses : Obligations.HalfwordClasses := by
  obtain ⟨hnotIT, hvalid, hunpredictable⟩ := class_counts_of_condition
  refine ⟨fun c m => (classify_itHalf c m).trans ?fields, (class_count_eq_sum hnotIT).trans (by decide),
    (class_count_eq_sum hvalid).trans (by decide), (class_count_eq_sum hunpredictable).trans (by decide)⟩
  case fields => by_cases hc : c = 0b1111#4 <;> simp [badCondition_iff, hc]

/-! ### The assembler's side -/

theorem letterBit_eq_ite (f : Bool) (x : Letter) : letterBit f x = if x = .t then f else !f := by
  cases x <;> rfl

/-- Settles O51: the forms of `maskOf`, with the bit of each letter. -/
theorem maskOfLetters : Obligations.MaskOfLetters := by
  intro f x y z
  simp only [maskOf, letterBit_eq_ite, and_self]

/-- A letter is read back from its bit (R68, R69). -/
@[simp] theorem bitLetter_letterBit (f : Bool) (x : Letter) : bitLetter f (letterBit f x) = x := by
  cases f <;> cases x <;> rfl

/-- The letters of each form of mask (R69). -/
theorem lettersOf_forms : ∀ f : Bool,
    lettersOf f 0b1000#4 = [] ∧
    (∀ a, lettersOf f (BitVec.ofBool a ++ 0b100#3) = [bitLetter f a]) ∧
    (∀ a b, lettersOf f (BitVec.ofBool a ++ BitVec.ofBool b ++ 0b10#2) = [bitLetter f a, bitLetter f b]) ∧
    ∀ a b c, lettersOf f (BitVec.ofBool a ++ BitVec.ofBool b ++ BitVec.ofBool c ++ 0b1#1) =
      [bitLetter f a, bitLetter f b, bitLetter f c] := by
  decide

/-- The letters of a line are read back from their mask (R68, R69). -/
theorem lettersOf_of_maskOf {f : Bool} {letters : List Letter} {mask : Mask} (h : maskOf f letters = some mask) :
    lettersOf f mask = letters := by
  obtain ⟨hnone, hone, htwo, hthree⟩ := lettersOf_forms f
  match letters with
  | [] => cases h; exact hnone
  | [x] => cases h; simp [hone]
  | [x, y] => cases h; simp [htwo]
  | [x, y, z] => cases h; simp [hthree]
  | _ :: _ :: _ :: _ :: _ => cases h

/-- The mask of letters is not zero: a `1` follows the letters' bits (R68). -/
theorem maskOf_ne_zero {f : Bool} {letters : List Letter} {mask : Mask} (h : maskOf f letters = some mask) :
    mask ≠ 0#4 := by
  have hone : ∀ a, BitVec.ofBool a ++ 0b100#3 ≠ 0#4 := by decide
  have htwo : ∀ a b, BitVec.ofBool a ++ BitVec.ofBool b ++ 0b10#2 ≠ 0#4 := by decide
  have hthree : ∀ a b c, BitVec.ofBool a ++ BitVec.ofBool b ++ BitVec.ofBool c ++ 0b1#1 ≠ 0#4 := by decide
  match letters with
  | [] => cases h; decide
  | [x] => cases h; exact hone _
  | [x, y] => cases h; exact htwo _ _
  | [x, y, z] => cases h; exact hthree _ _ _
  | _ :: _ :: _ :: _ :: _ => cases h

/-- A nonzero mask is the mask of its letters (R68, R69). -/
theorem maskOf_lettersOf : ∀ (f : Bool) (mask : Mask), mask ≠ 0#4 → maskOf f (lettersOf f mask) = some mask := by
  decide

/-- The lines that have a halfword, and which (R64, R68, R70). -/
theorem lineHalf_eq_some_iff {a : AsmLine} {hw : Half} :
    lineHalf a = some hw ↔
      a.qualifier ≠ .wide ∧ ∃ mask, maskOf (condLow a.cond) a.letters = some mask ∧
        badCondition a.cond mask = false ∧ hw = itHalf a.cond mask := by
  by_cases hq : a.qualifier = .wide
  · simp [lineHalf, hq]
  cases hmask : maskOf (condLow a.cond) a.letters with
  | none => simp [lineHalf, hq, hmask]
  | some mask =>
    cases hbad : badCondition a.cond mask with
    | true => simp [lineHalf, hq, hmask, hbad]
    | false => simp [lineHalf, hq, hmask, hbad, eq_comm (a := hw)]

/-- Settles O58: `lineHalf` answers the halfword with the line's fields. -/
theorem lineHalfword : Obligations.LineHalfword :=
  fun _ _ => lineHalf_eq_some_iff.trans <|
    and_congr_right fun _ => exists_congr fun _ => and_congr_right fun _ => and_congr_right fun _ => eq_itHalf_iff

/-- The halfwords that have a line, and which (R64, R69). -/
theorem disassemble_eq_some_iff {hw : Half} {a : AsmLine} :
    disassemble hw = some a ↔
      (isIT hw = true ∧ badCondition (firstcondOf hw) (maskField hw) = false) ∧
        a = { letters := lettersOf (condLow (firstcondOf hw)) (maskField hw), qualifier := .none,
              cond := firstcondOf hw } := by
  rw [← classify_eq_valid_iff]
  by_cases hvalid : classify hw = .valid <;> simp [disassemble, hvalid, eq_comm]

/-- Settles O52: the fields go through the halfword, and the letters through the mask. -/
theorem assembleDisassembleAgree : Obligations.AssembleDisassembleAgree := by
  refine ⟨fun a hw h => ?read, fun a hw h => ?written⟩
  case read =>
    obtain ⟨-, mask, hmask, hgood, rfl⟩ := lineHalf_eq_some_iff.1 h
    simp [disassemble_eq_some_iff, isIT_iff, maskOf_ne_zero hmask, hgood, lettersOf_of_maskOf hmask]
  case written =>
    obtain ⟨⟨hi, hgood⟩, rfl⟩ := disassemble_eq_some_iff.1 h
    exact lineHalf_eq_some_iff.2
      ⟨by simp, _, maskOf_lettersOf _ _ (maskField_ne_zero hi), hgood, (itHalf_of_isIT hi).symm⟩

/-- Settles O53: the halfword decides for both instruction sets whether the line assembles. -/
theorem a32EmitsNothing : Obligations.A32EmitsNothing := by
  refine fun a => ⟨fun hnone => ?none, fun hw hsome => ?some⟩
  case none => simp [assemble, hnone]
  case some => simp [assemble, hsome, bytesOfHalf]

/-! ### The excluded row -/

/-- Settles O7: both are `P_OtherInstr` asked with the halfword `0xBFx0`. -/
theorem itWithZeroMaskIsTheExcludedRow : Obligations.ITWithZeroMaskIsTheExcludedRow := by
  intro x s
  calc exec (.it x 0#4) s = otherInstr (itHalf x 0#4) s := rfl
    _ = exec (.misc16 x) s := rfl

/-- A 16-bit instruction for which `P_OtherInstr` is undefined is refused, whether its condition holds or not (R102,
R115). -/
theorem otherInstr_of_undefined {hw : Half} {s : State} (hc : inconsistentIT s.it = false) (hnarrow : isWide hw = false)
    (hnone : ∀ passed, pOtherInstr hw passed none s = none) : otherInstr hw s = .refused (.notInSpec hw) := by
  obtain ⟨cond, hcond⟩ := exists_currentCond s.it hc
  simp [otherInstr, hcond, otherEffect, secondHalf_narrow s hnarrow, hnone]

/-- Of the excluded row `NOP` alone has the halfword `0xBF00` (R63, R115). -/
theorem miscHalf_ne_nop {x : BitVec 4} (hx : x ≠ 0#4) : miscHalf x ≠ 0xBF00#16 := by
  intro h
  have hfields : miscHalf x = itHalf 0#4 0#4 := h
  exact hx (by simpa [miscHalf_eq_itHalf] using congrArg firstcondOf hfields)

/-- Settles O9: neither instantiation answers for these halfwords, whatever the condition. -/
theorem miscRefusedWithoutMeaning : Obligations.MiscRefusedWithoutMeaning := by
  intro x s hc
  obtain ⟨-, -, hnarrow⟩ := Laws.OneHalfword.misc16 x
  exact ⟨fun ho => otherInstr_of_undefined hc hnarrow fun _ => pOtherInstr_empty ho,
    fun ho hx => otherInstr_of_undefined hc hnarrow fun _ => pOtherInstr_nop_other ho (miscHalf_ne_nop hx)⟩

/-! ### The conditions -/

/-- A condition with bit 0 set is the opposite of the one before it, but for `1111` (R106). -/
theorem conditionHolds_odd (f : Flags) {base : BitVec 3} (hbase : base ≠ 0b111#3) :
    conditionHolds (base ++ 1#1) f = !conditionHolds (base ++ 0#1) f := by
  have hodd : ∀ b : BitVec 3, (b ++ 1#1).extractLsb' 1 3 = b ∧ (b ++ 1#1).getLsbD 0 = true ∧
      (b ≠ 0b111#3 → b ++ 1#1 ≠ 0b1111#4) := by decide
  have heven : ∀ b : BitVec 3, (b ++ 0#1).extractLsb' 1 3 = b ∧ (b ++ 0#1).getLsbD 0 = false := by decide
  obtain ⟨hoddBase, hoddBit, hne⟩ := hodd base
  obtain ⟨hevenBase, hevenBit⟩ := heven base
  simp only [conditionHolds, hoddBase, hoddBit, hevenBase, hevenBit]
  simp [hne hbase]

/-- Settles O42: the even rows are the tests of R106, the odd ones their opposites. -/
theorem conditionTable : Obligations.ConditionTable := by
  intro f
  have hodd (base : BitVec 3) (hbase : base ≠ 0b111#3) := conditionHolds_odd f hbase
  refine ⟨rfl, hodd 0b000#3 (by decide), rfl, hodd 0b001#3 (by decide), rfl, hodd 0b010#3 (by decide),
    rfl, hodd 0b011#3 (by decide), rfl, (hodd 0b100#3 (by decide)).trans ?ls, rfl, hodd 0b101#3 (by decide),
    ?gt, (hodd 0b110#3 (by decide)).trans ?le, rfl, rfl⟩
  case ls =>
    calc (!(f.c && !f.z)) = (!f.c || !!f.z) := Bool.not_and _ _
      _ = (!f.c || f.z) := by rw [Bool.not_not]
  case gt => exact Bool.and_comm _ _
  case le =>
    calc (!(f.n == f.v && !f.z)) = (!(f.n == f.v) || !!f.z) := Bool.not_and _ _
      _ = (f.z || f.n != f.v) := by rw [Bool.not_not, Bool.or_comm]; rfl

end Sys2Proof.Machine
end

section
/-! PROOF. The statements about `IT`: how it ends, what it writes, why a step faults, that neither `IT` nor the spec's own
instantiations of `P_OtherInstr` depend on the flags, and which slots a block has. First what each operation answers, then the
statements. -/

namespace Sys2Proof.Machine

/-! ### The fields of ITSTATE -/

/-- The low byte of a halfword is what its fields stand for in `PSTATE.IT` (R65, R87). -/
theorem lowByte_eq_itOperand (hw : Half) :
    (hw.extractLsb' 0 8 : ITBits) = itOperand (firstcondOf hw) (maskField hw) := by
  rw [itOperand, firstcondOf, maskField, BitVec.extractLsb'_append_extractLsb'_eq_extractLsb' (by decide)]

theorem lowByte_itHalf (firstcond : Cond) (mask : Mask) :
    ((itHalf firstcond mask).extractLsb' 0 8 : ITBits) = firstcond ++ mask := by
  rw [lowByte_eq_itOperand, firstcondOf_itHalf, maskField_itHalf, itOperand]

@[simp] theorem itCond_itOperand (firstcond : Cond) (mask : Mask) : itCond (itOperand firstcond mask) = firstcond :=
  BitVec.extractLsb'_append_eq_left

/-- What an `IT` writes is what slot 1 of its block sees (R87, R114). -/
theorem slotITSTATE_one : ∀ (firstcond : Cond) (mask : Mask),
    slotITSTATE firstcond mask 1 = itOperand firstcond mask := by
  decide

/-- Outside a block the only consistent value is zero (R24, R103). -/
theorem eq_zero_of_outside_block : ∀ {b : ITBits}, inconsistentIT b = false → inITBlock b = false → b = 0#8 := by
  decide

@[simp] theorem itAdvance_zero : itAdvance 0#8 = 0#8 := rfl

/-! ### `IT` in and outside a block -/

section ITEnds

variable {firstcond : Cond} {mask : Mask} {s : State}

/-- Inside a block neither the condition nor a parameter is looked at (R84, R92). -/
theorem execIT_inside (hm : mask ≠ 0#4) (hin : inITBlock s.it = true) :
    execIT firstcond mask s = .fault (.unpredictable (.itInsideITBlock s.pc (itHalf firstcond mask))) := by
  simp [execIT, hm, hin, raiseUnpredictable]

/-- The end of the Execute lines where the next address exists (R87 to R89). -/
theorem advancePC_of_written (hfits : s.pc.toNat + 2 < 2 ^ 32) :
    advancePC 2 ((s.setIT (itOperand firstcond mask)).setShouldAdvanceIT false) =
      .next { s with it := firstcond ++ mask, shouldAdvanceIT := false, pc := s.pc + 2#32 } :=
  advancePC_of_fits (s := (s.setIT (itOperand firstcond mask)).setShouldAdvanceIT false) hfits

theorem executeIT_completes (hitd : s.params.itd = false) (hfits : s.pc.toNat + 2 < 2 ^ 32) :
    executeIT firstcond mask s =
      .next { s with it := firstcond ++ mask, shouldAdvanceIT := false, pc := s.pc + 2#32 } :=
  (executeIT_itd_off hitd).trans (advancePC_of_written hfits)

/-- Under ITD controls a listed halfword after a one-instruction `IT` disables it (R86). -/
theorem executeIT_disabled_listed {next : Half} (hitd : s.params.itd = true) (hfits : s.pc.toNat + 2 < 2 ^ 32)
    (hnext : fetch16 s.text (s.pc + 2#32) = .ok next) (hlisted : ITDListed next) :
    executeIT firstcond 0b1000#4 s = .fault (.undefined (.itDisabled s.pc (itHalf firstcond 0b1000#4))) := by
  have hafter : fetchAfter 2 s = .ok next := (fetchAfter_of_fits hfits).trans hnext
  simp [executeIT, checkITEnabled, hitd, hafter, (itdForbids_iff next).2 hlisted, raiseUndefined]

/-- Under ITD controls a one-instruction `IT` completes before any other halfword (R86). -/
theorem executeIT_completes_unlisted {next : Half} (hitd : s.params.itd = true) (hfits : s.pc.toNat + 2 < 2 ^ 32)
    (hnext : fetch16 s.text (s.pc + 2#32) = .ok next) (hnot : ¬ ITDListed next) :
    executeIT firstcond 0b1000#4 s =
      .next { s with it := firstcond ++ 0b1000#4, shouldAdvanceIT := false, pc := s.pc + 2#32 } := by
  have hafter : fetchAfter 2 s = .ok next := (fetchAfter_of_fits hfits).trans hnext
  rw [← advancePC_of_written hfits]
  simp [executeIT, checkITEnabled, hitd, hafter, (itdForbids_eq_false_iff next).2 hnot]

/-- Under ITD controls a one-instruction `IT` is refused where the text lacks the next halfword (R41, R86). -/
theorem executeIT_noText (hitd : s.params.itd = true) (hfits : s.pc.toNat + 2 < 2 ^ 32)
    (heven : s.pc.getLsbD 0 = false)
    (hnone : s.text.read (s.pc + 2#32) = none ∨ s.text.read (s.pc + 2#32 + 1#32) = none) :
    executeIT firstcond 0b1000#4 s = .refused (.noText (s.pc + 2#32)) :=
  executeIT_no_next hitd ((fetchAfter_of_fits hfits).trans (fetch16_of_missing (even_add heven rfl) hnone))

end ITEnds

/-- Settles O1: the Execute lines without ITD controls; the value written has `firstcond` in its condition. -/
theorem itCompletesWithITSTATE : Obligations.ITCompletesWithITSTATE := by
  intro firstcond mask s hm hin hgood hitd hfits
  have hblock : inITBlock (firstcond ++ mask) = true := inITBlock_itOperand firstcond hm
  have hcond : currentCond (firstcond ++ mask) = some (itCond (itOperand firstcond mask)) :=
    currentCond_of_inITBlock hblock
  rw [itCond_itOperand] at hcond
  rw [lowByte_itHalf]
  exact ⟨(execIT_executes hm hin (.inl hgood)).trans (executeIT_completes hitd hfits), rfl, hblock, hcond⟩

/-- Settles O2: the test of R84 comes first, so a next state comes from outside a block. -/
theorem itInsideBlockNeverExecutes : Obligations.ITInsideBlockNeverExecutes := by
  refine fun firstcond mask s hm => ⟨fun hin => execIT_inside hm hin, fun t hc h => ?_⟩
  obtain ⟨hout, -⟩ := execIT_next hm h
  exact eq_zero_of_outside_block hc hout

/-- Settles O4: the ways the Execute lines end under ITD controls. -/
theorem itdControlsDisableListedUses : Obligations.ITDControlsDisableListedUses := by
  intro firstcond mask s hm hin hgood hitd hfits
  have hexec : exec (.it firstcond mask) s = executeIT firstcond mask s := execIT_executes hm hin (.inl hgood)
  rw [hexec]
  refine ⟨fun hmask => executeIT_disabled_long hitd hmask, ?one⟩
  case one =>
    rintro rfl
    exact ⟨fun next hnext => ⟨executeIT_disabled_listed hitd hfits hnext, executeIT_completes_unlisted hitd hfits hnext⟩,
      executeIT_noText hitd hfits⟩

/-- Settles O3: each of the ends of `IT`, from the state the step begins it in, with the end of the step after it. Only the
no-operation leaves an advance due, of a `PSTATE.IT` that is zero. -/
theorem badConditionUnderEachChoice : Obligations.BadConditionUnderEachChoice := by
  intro firstcond mask s hm hzero hfits hcond
  have hbad : badCondition firstcond mask = true := by simpa only [badCondition_iff, not_or] using hcond
  have hin : inITBlock (s.setShouldAdvanceIT true).it = false := by rw [State.setShouldAdvanceIT_it, hzero]; rfl
  obtain ⟨hfault, hundef, hnop⟩ := execIT_bad hm hin hbad
  have hexec (hcu : s.params.cuIT = .execute) :
      exec (.it firstcond mask) (s.setShouldAdvanceIT true) = executeIT firstcond mask (s.setShouldAdvanceIT true) :=
    execIT_executes hm hin (.inr hcu)
  refine ⟨fun hcu => congrArg endStep (hfault hcu), fun hcu => congrArg endStep (hundef hcu), fun hcu => ?nop,
    fun hcu hitd => ?itdOff, fun hcu hitd hmask => ?long, fun hcu hitd hmask => ?one⟩
  case nop =>
    calc endStep (exec (.it firstcond mask) (s.setShouldAdvanceIT true))
        = endStep (.next { s with pc := s.pc + 2#32, shouldAdvanceIT := true }) :=
          congrArg endStep ((hnop hcu).trans (advancePC_of_fits (s := s.setShouldAdvanceIT true) hfits))
      _ = .next { s with pc := s.pc + 2#32, shouldAdvanceIT := true } := by
          simp [endStep, advanceIfDue, State.setIT, hzero]
  case itdOff =>
    rw [hexec hcu]
    exact congrArg endStep (executeIT_completes (s := s.setShouldAdvanceIT true) hitd hfits)
  case long =>
    rw [hexec hcu]
    exact congrArg endStep (executeIT_disabled_long (s := s.setShouldAdvanceIT true) hitd hmask)
  case one =>
    rw [hexec hcu]
    subst hmask
    exact ⟨fun next hnext =>
        ⟨fun hlisted => congrArg endStep
            (executeIT_disabled_listed (s := s.setShouldAdvanceIT true) hitd hfits hnext hlisted),
          fun hnot => congrArg endStep
            (executeIT_completes_unlisted (s := s.setShouldAdvanceIT true) hitd hfits hnext hnot)⟩,
      fun heven hnone => congrArg endStep
        (executeIT_noText (s := s.setShouldAdvanceIT true) hitd hfits heven hnone)⟩

/-- Settles O6: neither next state of `IT` touches them. -/
theorem itWritesNothingElse : Obligations.ITWritesNothingElse := by
  intro firstcond mask s t hm h
  obtain ⟨-, -, ⟨-, -, rfl⟩ | ⟨-, rfl⟩⟩ := execIT_next hm h
  · exact ⟨rfl, rfl, rfl, fun _ => rfl⟩
  · exact ⟨rfl, rfl, rfl, fun _ => rfl⟩

/-! ### The step of an `IT` -/

theorem runHalf_of_isIT {hw : Half} (s : State) (h : isIT hw = true) :
    runHalf hw s = execIT (firstcondOf hw) (maskField hw) s := by
  obtain ⟨-, -, hrun⟩ | ⟨hi, -⟩ := runHalf_cases hw s
  · exact hrun
  · rw [h] at hi; cases hi

/-- Everything a next state of the step of an `IT` can be (R83, R88): the no-operation of a bad condition, with the advance
of ITSTATE, or the Execute lines, without it. -/
theorem step_next_of_isIT {s t : State} {hw : Half} (hfetch : Fetches s hw) (hi : isIT hw = true)
    (h : step s = .next t) :
    s.it = 0#8 ∧
      ((badCondition (firstcondOf hw) (maskField hw) = true ∧ s.params.cuIT = .nop ∧
          t = { s with it := itAdvance s.it, shouldAdvanceIT := true, pc := s.pc + 2#32 }) ∨
        ((badCondition (firstcondOf hw) (maskField hw) = false ∨ s.params.cuIT = .execute) ∧
          t = { s with it := hw.extractLsb' 0 8, shouldAdvanceIT := false, pc := s.pc + 2#32 })) := by
  rw [step_of_fetches hfetch, runHalf_of_isIT _ hi] at h
  obtain ⟨hc, -, -⟩ := hfetch
  obtain ⟨u, hu, rfl⟩ := endStep_next h
  obtain ⟨hout, -, hends⟩ := execIT_next (maskField_ne_zero hi) hu
  refine ⟨eq_zero_of_outside_block hc hout, ?_⟩
  obtain ⟨hbad, hcu, rfl⟩ | ⟨hexec, rfl⟩ := hends
  · exact .inl ⟨hbad, hcu, rfl⟩
  · exact .inr ⟨hexec, by rw [lowByte_eq_itOperand]; rfl⟩

/-- Settles O18: an `IT` that sets ITSTATE does not end as a no-operation. -/
theorem stepOfITLeavesSlotOneState : Obligations.StepOfITLeavesSlotOneState := by
  intro s t hw hfetch ⟨hi, hsets⟩ h
  obtain ⟨-, ⟨hbad, hcu, -⟩ | ⟨-, rfl⟩⟩ := step_next_of_isIT hfetch hi h
  · simp [hbad, hcu] at hsets
  · exact ⟨rfl, (lowByte_eq_itOperand hw).trans (slotITSTATE_one _ _).symm⟩

/-- Settles O25: the run that is over, the no-operation of a bad `IT` and every instruction that is not `IT` leave a
`PSTATE.IT` that is zero at zero. -/
theorem blockEnteredOnlyByIT : Obligations.BlockEnteredOnlyByIT := by
  intro s t h hzero hne
  obtain ⟨rfl, -⟩ | ⟨hw, u, hc, hp, hf, hrun, rfl⟩ := step_next h
  · exact absurd hzero hne
  cases hi : isIT hw with
  | true =>
    obtain ⟨-, ⟨-, -, ht⟩ | ⟨-, ht⟩⟩ := step_next_of_isIT ⟨hc, hp, hf⟩ hi h
    · rw [ht] at hne
      exact absurd (by simp [hzero]) hne
    · exact ⟨hw, hf, hi, by rw [ht]⟩
  | false =>
    rw [runHalf_of_not_isIT _ hi] at hrun
    obtain ⟨hit, hadv, -⟩ := otherInstr_frame hrun
    exact absurd (by simp [advanceIfDue, hit, hadv, hzero]) hne

/-! ### The cause of each fault -/

/-- Everything a fault of the step can be (R24, R102): the test of `PSTATE.IT`, or what the instruction faults with. -/
theorem step_fault {s : State} {f : Fault} (h : step s = .fault f) :
    (f = .unpredictable (.inconsistentITSTATE s.pc s.it) ∧ inconsistentIT s.it = true) ∨
      (∃ hw, Fetches s hw ∧ runHalf hw (s.setShouldAdvanceIT true) = .fault f) := by
  simp only [step] at h
  split at h
  · rename_i o hb
    subst h
    obtain ⟨ho, hc⟩ | ⟨ho, -⟩ | ⟨ho, -⟩ | ⟨r, ho, -⟩ := beginStep_done hb <;> cases ho
    exact .inl ⟨rfl, hc⟩
  · rename_i hw s1 hb
    obtain ⟨hc, hp, hf, rfl⟩ := beginStep_fetched hb
    exact .inr ⟨hw, ⟨hc, hp, hf⟩, endStep_fault h⟩

theorem fetchAfter_ok {k : Nat} {s : State} {hw : Half} (h : fetchAfter k s = .ok hw) :
    fetch16 s.text (s.pc + BitVec.ofNat 32 k) = .ok hw := by
  simp only [fetchAfter] at h
  split at h
  · exact h
  · cases h

theorem classify_eq_constrainedUnpredictable_iff {hw : Half} :
    classify hw = .constrainedUnpredictable ↔
      isIT hw = true ∧ badCondition (firstcondOf hw) (maskField hw) = true := by
  cases hi : isIT hw <;> cases hbad : badCondition (firstcondOf hw) (maskField hw) <;> simp [classify, hi, hbad]

/-- What an `IT` at the pc faults with has its cause, in the order of its tests (R92, R120). -/
theorem faultCause_of_execIT {s : State} {hw : Half} {f : Fault} (hf : fetch16 s.text s.pc = .ok hw)
    (hi : isIT hw = true) (h : execIT (firstcondOf hw) (maskField hw) (s.setShouldAdvanceIT true) = .fault f) :
    FaultCause s f := by
  have hends := execIT_fault (maskField_ne_zero hi) h
  rw [itHalf_of_isIT hi] at hends
  obtain ⟨hin, rfl⟩ | ⟨hout, hbad, hcu, rfl⟩ | ⟨hout, hbad, hcu, rfl⟩ | ⟨hout, hexec, hitd, hdisabled, rfl⟩ :=
    hends
  · exact ⟨rfl, hf, hi, hin⟩
  · exact ⟨rfl, ⟨hf, hi, hout⟩, classify_eq_constrainedUnpredictable_iff.2 ⟨hi, hbad⟩, hcu⟩
  · exact ⟨rfl, ⟨hf, hi, hout⟩, classify_eq_constrainedUnpredictable_iff.2 ⟨hi, hbad⟩, hcu⟩
  · refine ⟨rfl, ⟨hf, hi, hout⟩, ⟨hi, hexec⟩, hitd, hdisabled.imp_right ?_⟩
    rintro ⟨next, hnext, hforbids⟩
    exact ⟨next, fetchAfter_ok hnext, (itdForbids_iff next).1 hforbids⟩

/-- What any other instruction at the pc faults with has its cause: `PSTATE.IT` was found consistent, so it is a branch onto a
slot (R112, R120). -/
theorem faultCause_of_otherInstr {s : State} {hw : Half} {f : Fault} (hfetch : Fetches s hw) (hi : isIT hw = false)
    (h : otherInstr hw (s.setShouldAdvanceIT true) = .fault f) : FaultCause s f := by
  obtain ⟨hc, -, hf⟩ := hfetch
  obtain ⟨hnone, -⟩ | ⟨cond, hw2, e, g, hcond, hholds, hsecond, hsome, hg, hslot, rfl⟩ := otherInstr_fault h
  · obtain ⟨cond, hcond⟩ := exists_currentCond s.it hc
    exact absurd (hcond.symm.trans hnone) (by simp)
  · exact ⟨rfl, hslot, hw, hw2, cond, e, g, hf, hi, hcond, hholds, hsecond, hsome, hg, rfl⟩

/-- Settles O26: the two ways a step faults, each with its cause. -/
theorem stepFaultsOnlyForItsCause : Obligations.StepFaultsOnlyForItsCause := by
  intro s f h
  obtain ⟨rfl, hc⟩ | ⟨hw, hfetch, hrun⟩ := step_fault h
  · exact ⟨rfl, rfl, hc⟩
  cases hi : isIT hw with
  | true =>
    rw [runHalf_of_isIT _ hi] at hrun
    obtain ⟨-, -, hf⟩ := hfetch
    exact faultCause_of_execIT hf hi hrun
  | false =>
    rw [runHalf_of_not_isIT _ hi] at hrun
    exact faultCause_of_otherInstr hfetch hi hrun

/-! ### A change of the flags -/

/-- The start of a step with a function applied to the state it goes on with. -/
def StepStart.map (g : State → State) : StepStart → StepStart
  | .done o => .done (mapNext g o)
  | .fetched hw s => .fetched hw (g s)

/-- The tests before an instruction read no flag (R24, R41, R144). -/
theorem beginStep_setFlags (s : State) (f : Flags) :
    beginStep (s.setFlags f) = (beginStep s).map (fun t => t.setFlags f) := by
  cases hc : inconsistentIT s.it with
  | true => simp [beginStep, hc, StepStart.map, mapNext, raiseUnpredictable]
  | false =>
    by_cases hend : s.pc = s.params.endAddr
    · by_cases hzero : s.it = 0#8
      · rw [hzero] at hc
        simp [beginStep, hc, hend, hzero, StepStart.map, mapNext]
      · simp [beginStep, hc, hend, hzero, StepStart.map, mapNext]
    · cases hf : fetch16 s.text s.pc with
      | error r => simp [beginStep, hc, hend, hf, StepStart.map, mapNext]
      | ok hw =>
        rw [beginStep_of_fetched hc hend hf, beginStep_of_fetched (s := s.setFlags f) hc hend hf]
        rfl

theorem advanceIfDue_setFlags (s : State) (f : Flags) :
    advanceIfDue (s.setFlags f) = (advanceIfDue s).setFlags f := by
  cases hdue : s.shouldAdvanceIT <;> simp only [advanceIfDue, State.setFlags_shouldAdvanceIT, hdue] <;> rfl

theorem endStep_mapNext_setFlags (f : Flags) (o : Host.Outcome State Fault Refusal) :
    endStep (mapNext (fun t => t.setFlags f) o) = mapNext (fun t => t.setFlags f) (endStep o) := by
  cases o with
  | next t => simp only [mapNext, endStep, advanceIfDue_setFlags]
  | fault x => rfl
  | refused r => rfl

/-- A step commutes with a change of the flags if the instruction it fetches does. -/
theorem step_setFlags {s : State} {f : Flags}
    (hrun : ∀ hw, Fetches s hw → runHalf hw ((s.setShouldAdvanceIT true).setFlags f) =
      mapNext (fun t => t.setFlags f) (runHalf hw (s.setShouldAdvanceIT true))) :
    step (s.setFlags f) = mapNext (fun t => t.setFlags f) (step s) := by
  simp only [step, beginStep_setFlags]
  cases hb : beginStep s with
  | done o => rfl
  | fetched hw u =>
    obtain ⟨hc, hp, hf, rfl⟩ := beginStep_fetched hb
    simp only [StepStart.map, hrun hw ⟨hc, hp, hf⟩, endStep_mapNext_setFlags]

theorem advancePC_setFlags (len : Nat) (s : State) (f : Flags) :
    advancePC len (s.setFlags f) = mapNext (fun t => t.setFlags f) (advancePC len s) := by
  by_cases hfits : s.pc.toNat + len < 2 ^ 32
  · rw [advancePC_of_fits hfits, advancePC_of_fits (s := s.setFlags f) hfits]; rfl
  · rw [advancePC_wraps hfits, advancePC_wraps (s := s.setFlags f) hfits]; rfl

/-- The Execute lines read no flag (R86 to R91). -/
theorem executeIT_setFlags (firstcond : Cond) (mask : Mask) (s : State) (f : Flags) :
    executeIT firstcond mask (s.setFlags f) = mapNext (fun t => t.setFlags f) (executeIT firstcond mask s) := by
  have hcheck : checkITEnabled mask (itHalf firstcond mask) (s.setFlags f) =
      checkITEnabled mask (itHalf firstcond mask) s := rfl
  obtain ⟨h, -⟩ | ⟨h, -⟩ | ⟨r, h, -⟩ := checkITEnabled_cases mask (itHalf firstcond mask) s
  · simp only [executeIT, hcheck, h]
    exact advancePC_setFlags 2 ((s.setIT (itOperand firstcond mask)).setShouldAdvanceIT false) f
  · simp only [executeIT, hcheck, h, mapNext]
  · simp only [executeIT, hcheck, h, mapNext]

/-- `IT` reads no flag (R91). -/
theorem execIT_setFlags {mask : Mask} (firstcond : Cond) (s : State) (f : Flags) (hm : mask ≠ 0#4) :
    execIT firstcond mask (s.setFlags f) = mapNext (fun t => t.setFlags f) (execIT firstcond mask s) := by
  cases hin : inITBlock s.it with
  | true => rw [execIT_inside hm hin, execIT_inside (s := s.setFlags f) hm hin]; rfl
  | false =>
    by_cases hexec : badCondition firstcond mask = false ∨ s.params.cuIT = .execute
    · rw [execIT_executes hm hin hexec, execIT_executes (s := s.setFlags f) hm hin hexec]
      exact executeIT_setFlags firstcond mask s f
    · obtain ⟨hbad, hcu⟩ := not_or.1 hexec
      rw [Bool.not_eq_false] at hbad
      obtain ⟨hfault, hundef, hnop⟩ := execIT_bad hm hin hbad
      obtain ⟨hfault', hundef', hnop'⟩ := execIT_bad (s := s.setFlags f) hm hin hbad
      cases hchoice : s.params.cuIT with
      | fault => rw [hfault hchoice, hfault' hchoice]; rfl
      | undef => rw [hundef hchoice, hundef' hchoice]; rfl
      | nop => rw [hnop hchoice, hnop' hchoice]; exact advancePC_setFlags 2 s f
      | execute => exact absurd hchoice hcu

theorem runHalf_setFlags_of_isIT {hw : Half} (s : State) (f : Flags) (hi : isIT hw = true) :
    runHalf hw (s.setFlags f) = mapNext (fun t => t.setFlags f) (runHalf hw s) := by
  simp only [runHalf_of_isIT _ hi]
  exact execIT_setFlags (firstcondOf hw) s f (maskField_ne_zero hi)

/-- Under the spec's two instantiations what `P_OtherInstr` answers depends neither on the flags nor on whether the condition
holds: a refusal, or the effect of `NOP` (R115). -/
theorem otherEffect_of_not_user (hw : Half) {s : State} (ho : s.params.otherInstr ≠ .user) :
    (∃ r, ∀ passed f, otherEffect hw passed (s.setFlags f) = .error r) ∨
      ∀ passed f, otherEffect hw passed (s.setFlags f) = .ok (nopEffect (s.setFlags f)) := by
  have hsecond (f : Flags) : secondHalf hw (s.setFlags f) = secondHalf hw s := rfl
  cases hs : secondHalf hw s with
  | error r => exact .inl ⟨r, fun passed f => by simp [otherEffect, hsecond, hs]⟩
  | ok hw2 =>
    cases hchoice : s.params.otherInstr with
    | empty =>
      refine .inl ⟨.notInSpec hw, fun passed f => ?_⟩
      simp [otherEffect, hsecond, hs, pOtherInstr_empty (s := s.setFlags f) hchoice]
    | nop =>
      by_cases hnop : hw = 0xBF00#16
      · subst hnop
        refine .inr fun passed f => ?_
        simp [otherEffect, hsecond, hs, pOtherInstr_nop (s := s.setFlags f) hchoice]
      · refine .inl ⟨.notInSpec hw, fun passed f => ?_⟩
        simp [otherEffect, hsecond, hs, pOtherInstr_nop_other (s := s.setFlags f) hchoice hnop]
    | user => exact absurd hchoice ho

/-- Under the spec's two instantiations an instruction that is not `IT` commutes with a change of the flags: they decide
whether its condition holds, and `NOP` only advances the pc either way (R108, R115). -/
theorem otherInstr_setFlags (hw : Half) {s : State} (f : Flags) (ho : s.params.otherInstr ≠ .user) :
    otherInstr hw (s.setFlags f) = mapNext (fun t => t.setFlags f) (otherInstr hw s) := by
  cases hcond : currentCond s.it with
  | none => simp [otherInstr, hcond, raiseUnpredictable, mapNext]
  | some cond =>
    obtain ⟨r, heff⟩ | heff := otherEffect_of_not_user hw ho
    · have hself : otherEffect hw (conditionHolds cond s.flags) s = .error r := heff _ s.flags
      simp [otherInstr, hcond, heff, hself, mapNext]
    · have hself : otherEffect hw (conditionHolds cond s.flags) s = .ok (nopEffect s) := heff _ s.flags
      simp only [otherInstr, State.setFlags_it, hcond, heff, hself, applyOther_nop]
      exact advancePC_setFlags (instrLength hw) s f

/-- Settles O23: `IT` reads no flag, and neither does the step around it. -/
theorem itIsUnconditional : Obligations.ITIsUnconditional := by
  intro s hw f hfetch hi
  refine ⟨step_setFlags fun hw' hfetch' => ?_, fun t h => (step_next_of_isIT hfetch hi h).1⟩
  obtain ⟨-, -, hf⟩ := hfetch
  obtain ⟨-, -, hf'⟩ := hfetch'
  obtain rfl : hw = hw' := Except.ok.inj (hf.symm.trans hf')
  exact runHalf_setFlags_of_isIT _ f hi

/-- Settles O24: both kinds of instruction commute with the change. -/
theorem itstateIndependentOfFlags : Obligations.ITSTATEIndependentOfFlags := by
  refine fun s f ho => step_setFlags fun hw _ => ?_
  cases hi : isIT hw with
  | true => exact runHalf_setFlags_of_isIT _ f hi
  | false =>
    simp only [runHalf_of_not_isIT _ hi]
    exact otherInstr_setFlags hw f ho

/-! ### The slots -/

/-- Every slot of a block has the `cond_base` of `firstcond` (R101). -/
theorem slotCond_base (firstcond : Cond) (mask : Mask) (k : Nat) :
    ((slotCond firstcond mask k).extractLsb' 1 3 : BitVec 3) = firstcond.extractLsb' 1 3 := by
  simp only [slotCond]
  split
  · rfl
  · exact BitVec.extractLsb'_append_eq_left

/-- The two conditions with `cond_base` 7 hold whatever the flags are (R106). -/
theorem conditionHolds_of_base_seven {cond : Cond} (f : Flags) (hbase : cond.extractLsb' 1 3 = 0b111#3) :
    conditionHolds cond f = true := by
  have htwo : ∀ c : Cond, c.extractLsb' 1 3 = 0b111#3 → c = 0b1110#4 ∨ c = 0b1111#4 := by decide
  obtain rfl | rfl := htwo cond hbase <;> rfl

/-- In a block of `AL` whose mask has one bit no slot is an else: that bit ends the block, and the bits of slots 2 to `n`
stand above it (R100, R101). -/
theorem slotCond_always {mask : Mask} {k : Nat} (hm : mask ≠ 0#4) (hk : k ≤ blockLength mask) (hone : bitCount mask = 1) :
    slotCond 0b1110#4 mask k = 0b1110#4 := by
  have hall : ∀ (m : Mask) (j : Fin 5), j.val ≤ blockLength m → bitCount m = 1 →
      slotCond 0b1110#4 m j = 0b1110#4 := by decide
  obtain ⟨-, hlen⟩ := blockLength_bounds hm
  exact hall mask ⟨k, by omega⟩ hk hone

/-- Settles O41: every slot keeps the `cond_base` of `firstcond`, and with 7 there it passes. -/
theorem alwaysBlocksPass : Obligations.AlwaysBlocksPass :=
  fun mask k f hm _ hk =>
    ⟨slotCond_always hm hk, conditionHolds_of_base_seven f (slotCond_base 0b1110#4 mask k),
      conditionHolds_of_base_seven f (slotCond_base 0b1111#4 mask k)⟩

theorem Params.forSlots_of_ne_fault {p : Params} (h : p.cuIT ≠ .fault) : p.forSlots = p := by
  simp [Params.forSlots, h]

theorem Params.forSlots_of_fault {p : Params} (h : p.cuIT = .fault) : p.forSlots = { p with cuIT := .execute } := by
  simp [Params.forSlots, h]

theorem mem_itSlots_iff {s : State} {b : Addr} :
    b ∈ s.itSlots ↔ ∃ a ∈ s.params.its, b ∈ blockSlots s.params.forSlots s.text a := List.mem_flatMap

/-- The address after an `IT` that sets ITSTATE is the first slot of its block (R100). -/
theorem mem_blockSlots_first {p : Params} {m : Memory} {a : Addr} {hw : Half} (hf : fetch16 m a = .ok hw)
    (hsets : setsBlock p m a hw = true) : a + 2#32 ∈ blockSlots p m a := by
  obtain ⟨hi, -⟩ := (setsBlock_iff p m a hw).1 hsets
  obtain ⟨hlen, -⟩ := blockLength_bounds (maskField_ne_zero hi)
  rw [blockSlots_of_setsBlock hf hsets]
  exact List.mem_of_head? (head?_lineOf m (a + 2#32) hlen)

/-- Settles O60: the parameters under which slots are looked for have `EXECUTE` for `FAULT`, and with `EXECUTE` a bad `IT`
sets ITSTATE. -/
theorem slotsOfTheListedITs : Obligations.SlotsOfTheListedITs := by
  refine fun s => ⟨fun hcu b => ?run, fun hcu b => ?fault, fun a hw ha hf hclass hitd hfits hcu => ?bad⟩
  case run => rw [mem_itSlots_iff, Params.forSlots_of_ne_fault hcu]
  case fault => rw [mem_itSlots_iff, Params.forSlots_of_fault hcu]
  case bad =>
    have hexec : s.params.forSlots.cuIT = .execute := by
      obtain hfault | hexec := hcu
      · rw [Params.forSlots_of_fault hfault]
      · rw [Params.forSlots_of_ne_fault (by simp [hexec]), hexec]
    obtain ⟨hi, -⟩ := classify_eq_constrainedUnpredictable_iff.1 hclass
    have hsets : setsBlock s.params.forSlots s.text a hw = true :=
      (setsBlock_iff _ _ _ _).2 ⟨hi, .inr hexec, hfits, .inl hitd⟩
    exact mem_itSlots_iff.2 ⟨a, ha, mem_blockSlots_first hf hsets⟩

end Sys2Proof.Machine
end

section
/-! PROOF. The statements about the IT block: the ITSTATE machine, the instructions that are not `IT`, the excluded row, the
step over them, and the walk through a block. First what each operation answers, then the statements. -/

namespace Sys2Proof.Machine

/-! ### The ITSTATE machine -/

/-- Settles O34: the three branches of `CurrentCond()`. -/
theorem currentCondCases : Obligations.CurrentCondCases := by
  refine fun b => ⟨fun hmask => ?inside, fun hzero => ?outside, fun hmask hne => ?inconsistent⟩
  case inside =>
    have hin : inITBlock b = true := by simpa [inITBlock, itMask] using hmask
    exact currentCond_of_inITBlock hin
  case outside =>
    subst hzero
    rfl
  case inconsistent => simp [currentCond, inITBlock, itMask, hmask, hne]

/-- Settles O35: with `PSTATE.IT[2:0]` zero all bits clear; otherwise `cond_base` stands before five bits that shift. -/
theorem itAdvanceCases : Obligations.ITAdvanceCases := by
  refine fun b => ⟨fun hlow => by simp [itAdvance, hlow], fun hlow => ?_⟩
  have hshift : itAdvance b = condBase b ++ ((b.extractLsb' 0 5 : BitVec 5) <<< 1) := by simp [itAdvance, hlow]
  have hfive : ∀ v : BitVec 5, ((v <<< 1).extractLsb' 1 4 : BitVec 4) = v.extractLsb' 0 4 ∧
      (v <<< 1).getLsbD 0 = false := by decide
  obtain ⟨hmask, hbit0⟩ := hfive (b.extractLsb' 0 5)
  rw [hshift]
  refine ⟨BitVec.extractLsb'_append_eq_left, ?mask, ?bit0⟩
  case mask =>
    rw [BitVec.extractLsb'_append_eq_of_add_le (by decide), hmask,
      BitVec.extractLsb'_extractLsb'_of_le (by decide)]
  case bit0 => rw [BitVec.getLsbD_append, if_pos (by decide), hbit0]

/-- `firstcond[3:1]` with a bit is `firstcond` or its inverse, as the bit is `firstcond[0]` or not (R101). -/
theorem condBase_append_ofBool : ∀ (firstcond : Cond) (b : Bool),
    (firstcond.extractLsb' 1 3 : BitVec 3) ++ BitVec.ofBool b =
      if b = firstcond.getLsbD 0 then firstcond else firstcond ^^^ 1#4 := by
  decide

/-- The condition of a slot after the first (R101). -/
theorem slotCond_of_two_le {firstcond : Cond} {mask : Mask} {k : Nat} (hk : 2 ≤ k) :
    slotCond firstcond mask k =
      (firstcond.extractLsb' 1 3 : BitVec 3) ++ BitVec.ofBool (mask.getLsbD (5 - k)) :=
  if_neg (by omega)

/-- Settles O36: slots 2 to 4 take their bit from the mask, and the bit decides between the letters. -/
theorem slotConditions : Obligations.SlotConditions := by
  intro firstcond mask
  have hbits : BitVec.ofBool (mask.getLsbD 3) = mask.extractLsb' 3 1 ∧
      BitVec.ofBool (mask.getLsbD 2) = mask.extractLsb' 2 1 ∧
      BitVec.ofBool (mask.getLsbD 1) = mask.extractLsb' 1 1 := by
    revert mask
    decide
  obtain ⟨h3, h2, h1⟩ := hbits
  refine ⟨rfl, ?slot2, ?slot3, ?slot4, fun k hk _ => ?letter⟩
  case slot2 => rw [slotCond_of_two_le (by decide), h3]
  case slot3 => rw [slotCond_of_two_le (by decide), h2]
  case slot4 => rw [slotCond_of_two_le (by decide), h1]
  case letter => rw [slotCond_of_two_le hk, condBase_append_ofBool]

/-- The last slot of a block is the one whose mask is `1000` (R104, R114), and the advance goes from each slot to the next
and from the last to zero (R107, R114). -/
theorem slotITSTATE_walk {firstcond : Cond} {mask : Mask} {k : Nat} (h1 : 1 ≤ k) (hk : k ≤ blockLength mask) :
    (lastInITBlock (slotITSTATE firstcond mask k) = true ↔ k = blockLength mask) ∧
      itAdvance (slotITSTATE firstcond mask k) =
        if k = blockLength mask then 0#8 else slotITSTATE firstcond mask (k + 1) := by
  have hall : ∀ (firstcond : Cond) (mask : Mask) (j : Fin 5), 1 ≤ j.val → j.val ≤ blockLength mask →
      (lastInITBlock (slotITSTATE firstcond mask j) = true ↔ j.val = blockLength mask) ∧
        itAdvance (slotITSTATE firstcond mask j) =
          if j.val = blockLength mask then 0#8 else slotITSTATE firstcond mask (j + 1) := by decide
  have hk5 : k < 5 := by simp only [blockLength] at hk; omega
  exact hall firstcond mask ⟨k, hk5⟩ h1 hk

/-! ### The effect of an instruction that is not `IT` -/

/-- Where the flags of an effect are kept out: a 16-bit instruction in a block that is no comparison (R109). -/
theorem flagsAfter_eq_ite (hw : Half) (b : ITBits) (comparison : Bool) (before after : Flags) :
    flagsAfter hw b comparison before after =
      if isWide hw = false ∧ inITBlock b = true ∧ comparison = false then before else after := by
  cases hwide : isWide hw <;> simp [flagsAfter, instrLength, hwide]

/-- The flags after an instruction that is not `IT` (R108, R109). -/
theorem applyOther_flags {hw : Half} {passed : Bool} {e : OtherEffect} {s t : State}
    (h : applyOther hw passed e s = .next t) :
    t.flags = if passed then flagsAfter hw s.it e.comparison s.flags e.flags else s.flags := by
  obtain ⟨rfl, -, rfl⟩ | ⟨rfl, -, -, rfl⟩ | ⟨g, rfl, -, -, rfl⟩ := applyOther_next h <;> rfl

/-- Settles O12: in a block the flags are the effect's but for a 16-bit instruction that is no comparison, and with a failed
condition they stay. -/
theorem sixteenBitInstructionsKeepFlagsInBlock : Obligations.SixteenBitInstructionsKeepFlagsInBlock := by
  intro hw passed e s t hin h
  rw [applyOther_flags h, flagsAfter_eq_ite]
  refine ⟨fun hnarrow hcmp => ?plain, fun _ hcmp => ?compares, fun hwide => ?wide⟩
  case plain => simp [hnarrow, hin, hcmp]
  case compares => simp [hcmp]
  case wide => simp [hwide]

/-- The data of an effect with the pc it leads to (R109, R115). -/
theorem applyData_setPC (hw : Half) (e : OtherEffect) (s : State) (a : Addr) :
    (applyData hw e s).setPC a =
      { s with
        pc := a, other := e.other
        flags := if isWide hw = false ∧ inITBlock s.it = true ∧ e.comparison = false then s.flags else e.flags } := by
  rw [← flagsAfter_eq_ite]
  rfl

/-- A taken branch onto a slot faults (R112, R120). -/
theorem applyOther_branch_onto_slot {hw : Half} {e : OtherEffect} {g : BitVec 31} {s : State}
    (htarget : e.target = some g) (hslot : targetAddr g ∈ s.itSlots) :
    applyOther hw true e s = .fault (.unpredictable (.branchIntoITBlock s.pc (targetAddr g))) := by
  simp [applyOther, htarget, hslot, raiseUnpredictable]

/-- A taken branch that lands on no slot has its effect and goes to its target (R109, R112). -/
theorem applyOther_branch_elsewhere {hw : Half} {e : OtherEffect} {g : BitVec 31} {s : State}
    (htarget : e.target = some g) (hfree : targetAddr g ∉ s.itSlots) :
    applyOther hw true e s = .next ((applyData hw e s).setPC (targetAddr g)) := by
  simp [applyOther, htarget, hfree]

/-- An instruction that does not branch has its effect and advances the pc (R109, R115). -/
theorem applyOther_no_branch {hw : Half} {e : OtherEffect} {s : State} (htarget : e.target = none) :
    applyOther hw true e s = advancePC (instrLength hw) (applyData hw e s) := by
  simp [applyOther, htarget]

/-- Settles O13: the target is a slot or it is not. -/
theorem takenBranchIntoBlockFaults : Obligations.TakenBranchIntoBlockFaults := by
  refine fun hw e g s htarget => ⟨fun hslot => applyOther_branch_onto_slot htarget hslot, fun hfree => ?free⟩
  case free =>
    rw [← applyData_setPC]
    exact applyOther_branch_elsewhere htarget hfree

/-- Settles O55: the data of the effect and the advance of the pc, which fits. -/
theorem otherInstrHasItsEffect : Obligations.OtherInstrHasItsEffect := by
  intro hw e s htarget hfits
  rw [applyOther_no_branch htarget, ← applyData_setPC]
  exact advancePC_of_fits (s := applyData hw e s) hfits

/-! ### The instructions that are not `IT` -/

/-- Where `P_OtherInstr` answers, its effect is applied with whether the condition holds (R102, R115). -/
theorem otherInstr_of_some {hw : Half} {hw2 : Option Half} {cond : Cond} {e : OtherEffect} {s : State}
    (hcond : currentCond s.it = some cond) (hsecond : secondHalf hw s = .ok hw2)
    (hsome : pOtherInstr hw (conditionHolds cond s.flags) hw2 s = some e) :
    otherInstr hw s = applyOther hw (conditionHolds cond s.flags) e s := by
  simp [otherInstr, hcond, otherEffect, hsecond, hsome]

/-- Where `P_OtherInstr` is undefined the instruction is refused (R102, R115). -/
theorem otherInstr_of_none {hw : Half} {hw2 : Option Half} {cond : Cond} {s : State}
    (hcond : currentCond s.it = some cond) (hsecond : secondHalf hw s = .ok hw2)
    (hnone : pOtherInstr hw (conditionHolds cond s.flags) hw2 s = none) :
    otherInstr hw s = .refused (.notInSpec hw) := by
  simp [otherInstr, hcond, otherEffect, hsecond, hnone]

/-- With a failed condition an instruction that is not `IT` advances the pc and does nothing else (R108). -/
theorem otherInstr_next_of_failed {hw : Half} {cond : Cond} {s u : State} (hcond : currentCond s.it = some cond)
    (hfail : conditionHolds cond s.flags = false) (h : otherInstr hw s = .next u) :
    u = s.setPC (s.pc + BitVec.ofNat 32 (instrLength hw)) := by
  obtain ⟨cond', e, hcond', -, happly⟩ := otherInstr_next h
  obtain rfl : cond = cond' := Option.some.inj (hcond.symm.trans hcond')
  rw [hfail] at happly
  obtain ⟨-, hu⟩ := advancePC_next happly
  exact hu

/-- Under `NOP` alone an instruction that is not `IT` has a next state only where it is `0xBF00`, which advances the pc by 2
and does nothing else (R115). -/
theorem otherInstr_next_of_nop {hw : Half} {s u : State} (ho : s.params.otherInstr = .nop)
    (h : otherInstr hw s = .next u) :
    instrLength hw = 2 ∧ s.pc.toNat + 2 < 2 ^ 32 ∧ u = s.setPC (s.pc + 2#32) := by
  obtain ⟨cond, e, -, he, happly⟩ := otherInstr_next h
  obtain ⟨hw2, e', -, hask, he'⟩ | ⟨hw2, -, -, he'⟩ | ⟨r, -, he'⟩ :=
    otherEffect_cases hw (conditionHolds cond s.flags) s <;> rw [he'] at he <;> cases he
  obtain ⟨-, ⟨-, rfl, rfl⟩ | ⟨huser, -⟩⟩ := pOtherInstr_some hask
  · rw [applyOther_nop] at happly
    exact ⟨rfl, advancePC_next happly⟩
  · rw [ho] at huser
    cases huser

/-! ### The excluded row -/

theorem isWide_miscHalf (x : BitVec 4) : isWide (miscHalf x) = false := by
  obtain ⟨-, -, hnarrow⟩ := Laws.OneHalfword.misc16 x
  exact hnarrow

theorem instrLength_miscHalf (x : BitVec 4) : instrLength (miscHalf x) = 2 := by
  simp [instrLength, isWide_miscHalf]

theorem isIT_miscHalf (x : BitVec 4) : isIT (miscHalf x) = false := by
  simp [isIT, miscHalf_eq_itHalf]

theorem exec_misc16 (x : BitVec 4) (s : State) : exec (.misc16 x) s = otherInstr (miscHalf x) s := rfl

/-- Settles O11: what no instruction that is not `IT` writes, and the advance that is left when the condition fails. -/
theorem miscFrame : Obligations.MiscFrame := by
  intro x s t h
  rw [exec_misc16] at h
  obtain ⟨hit, hadv, htext, hparams⟩ := otherInstr_frame h
  refine ⟨hit, hadv, hparams, fun a => by rw [htext], fun cond hcond hfail => ?_⟩
  rw [otherInstr_next_of_failed hcond hfail h, instrLength_miscHalf]
  rfl

/-- Settles O8: `NOP` is answered whatever its condition, and its effect is the advance of the pc. -/
theorem miscNopCompletes : Obligations.MiscNopCompletes := by
  intro s hc ho hfits
  obtain ⟨cond, hcond⟩ := exists_currentCond s.it hc
  calc exec (.misc16 0#4) s
      = applyOther (miscHalf 0#4) (conditionHolds cond s.flags) (nopEffect s) s :=
        otherInstr_of_some hcond (secondHalf_narrow s (isWide_miscHalf 0#4)) (pOtherInstr_nop ho)
    _ = advancePC 2 s := by rw [applyOther_nop, instrLength_miscHalf]
    _ = .next { s with pc := s.pc + 2#32 } := advancePC_of_fits hfits

/-- Settles O10: the excluded row has no second halfword, and its halfword is not `IT`, so the user's instantiation is
asked. -/
theorem miscFollowsUserInstantiation : Obligations.MiscFollowsUserInstantiation := by
  intro x s cond hcond ho
  have hsecond := secondHalf_narrow s (isWide_miscHalf x)
  have hask := pOtherInstr_user (passed := conditionHolds cond s.flags) (hw2 := none) (isIT_miscHalf x) ho
  simp only [otherView] at hask
  split
  · rename_i hnone
    exact otherInstr_of_none hcond hsecond (hask.trans hnone)
  · rename_i e hsome
    exact otherInstr_of_some hcond hsecond (hask.trans hsome)

/-! ### The step -/

/-- What a step that completes has done once its halfword is known (R102). -/
theorem step_next_of_fetches {s t : State} {hw : Half} (hfetch : Fetches s hw) (h : step s = .next t) :
    ∃ u, runHalf hw (s.setShouldAdvanceIT true) = .next u ∧ t = advanceIfDue u := by
  rw [step_of_fetches hfetch] at h
  exact endStep_next h

/-- Settles O14: the failed instruction advances the pc, and the end of the step advances ITSTATE. -/
theorem failedConditionOnlyAdvances : Obligations.FailedConditionOnlyAdvances := by
  intro s t hw cond hfetch hi hcond hfail h
  obtain ⟨u, hu, rfl⟩ := step_next_of_fetches hfetch h
  rw [runHalf_of_not_isIT _ hi] at hu
  rw [otherInstr_next_of_failed (s := s.setShouldAdvanceIT true) hcond hfail hu]
  rfl

/-- Two bytes that decode to an instruction are its halfword (R41, R42). -/
theorem decodeHalf_of_decode {lo hi : Byte} {i : Instr} (h : decode [lo, hi] = .ok (i, [])) :
    decodeHalf (halfOfBytes lo hi) = .ok i := by
  obtain ⟨hw, hd, hbytes⟩ := decode_ok h
  obtain ⟨rfl, rfl⟩ : lo = hw.extractLsb' 0 8 ∧ hi = hw.extractLsb' 8 8 := by simpa [bytesOfHalf] using hbytes
  rwa [halfOfBytes_bytes]

/-- Settles O16: the two bytes are fetched as a halfword, which decodes to the instruction. -/
theorem stepRunsDecodedInstruction : Obligations.StepRunsDecodedInstruction := by
  intro s lo hi i hc hp heven hlo hhi hdecode _
  have hfetch : Fetches s (halfOfBytes lo hi) := ⟨hc, hp, fetch16_of_reads heven hlo hhi⟩
  rw [step_of_fetches hfetch, runHalf_of_decodeHalf _ (decodeHalf_of_decode hdecode)]

/-- Settles O17: such a halfword is not `IT`. -/
theorem stepHandsOtherHalfwordsOver : Obligations.StepHandsOtherHalfwordsOver := by
  intro s hw hfetch htop
  have hi : isIT hw = false := by simp [isIT, htop]
  rw [step_of_fetches hfetch, runHalf_of_not_isIT _ hi]

/-! ### The walk through a block -/

/-- A step that completes in a block runs an instruction that is not `IT` (R84), and then ITSTATE advances (R107): the run
is not over there, and an `IT` would fault. -/
theorem step_next_inside {s t : State} (hin : inITBlock s.it = true) (h : step s = .next t) :
    ∃ hw u, fetch16 s.text s.pc = .ok hw ∧ otherInstr hw (s.setShouldAdvanceIT true) = .next u ∧
      t = u.setIT (itAdvance s.it) := by
  obtain ⟨-, hfinal⟩ | ⟨hw, u, hc, hp, hf, hrun, rfl⟩ := step_next h
  · simp [isFinal, ne_zero_of_inITBlock hin] at hfinal
  cases hi : isIT hw with
  | true =>
    rw [runHalf_of_isIT _ hi, execIT_inside (s := s.setShouldAdvanceIT true) (maskField_ne_zero hi) hin] at hrun
    cases hrun
  | false =>
    rw [runHalf_of_not_isIT _ hi] at hrun
    obtain ⟨hit, hadv, -, -⟩ := otherInstr_frame hrun
    refine ⟨hw, u, hf, hrun, ?_⟩
    simp [advanceIfDue, hit, hadv]

/-- A step that completes in slot `k` leaves the next slot's state, or zero after the last slot (R107, R114). -/
theorem step_next_it_of_slot {firstcond : Cond} {mask : Mask} {k : Nat} {s t : State} (h1 : 1 ≤ k)
    (hk : k ≤ blockLength mask) (hit : s.it = slotITSTATE firstcond mask k) (h : step s = .next t) :
    t.it = if k = blockLength mask then 0#8 else slotITSTATE firstcond mask (k + 1) := by
  obtain ⟨-, hin⟩ := slotITSTATE_fields (firstcond := firstcond) h1 hk
  obtain ⟨-, hadvance⟩ := slotITSTATE_walk (firstcond := firstcond) h1 hk
  rw [← hit] at hin hadvance
  obtain ⟨hw, u, -, -, rfl⟩ := step_next_inside hin h
  exact hadvance

/-- Settles O37: the slot's state holds its condition, its place in the block, and what the step advances to. -/
theorem stepWalksTheBlock : Obligations.StepWalksTheBlock := by
  intro firstcond mask k s t _ h1 hk hit
  obtain ⟨hcond, hin⟩ := slotITSTATE_fields (firstcond := firstcond) h1 hk
  obtain ⟨hlast, -⟩ := slotITSTATE_walk (firstcond := firstcond) h1 hk
  refine ⟨?_, ?_, step_next_it_of_slot h1 hk hit⟩
  · rw [hit, currentCond_of_inITBlock hin, hcond]
  · rw [hit, hlast]

/-- Settles O38, by induction on the steps after the `IT`: each starts in the slot the one before it left. -/
theorem blockLastsItsLength : Obligations.BlockLastsItsLength := by
  intro s t hw j hfetch hsets
  have ⟨hi, _⟩ := hsets
  obtain ⟨hlen, -⟩ := blockLength_bounds (maskField_ne_zero hi)
  induction j generalizing t with
  | zero =>
    intro _ hrun
    obtain ⟨u, hu, hstep⟩ := core_run_succ 0 s t hrun
    cases hu
    obtain ⟨-, hslot⟩ := stepOfITLeavesSlotOneState s t hw hfetch hsets hstep
    rw [if_neg (by omega), hslot]
  | succ j ih =>
    intro hj hrun
    obtain ⟨u, hu, hstep⟩ := core_run_succ (j + 1) s t hrun
    have hslot := ih u (by omega) hu
    rw [if_neg (by omega)] at hslot
    exact step_next_it_of_slot (by omega) hj hslot hstep

/-! ### The addresses executed in a block -/

/-- No run writes the text or the parameters (R49, R141 (f)). -/
theorem core_run_sameRun {k : Nat} {s t : State} (h : Host.Core.run Sys2Proof.core k s = .next t) : SameRun s t := by
  induction k generalizing t with
  | zero => cases h; exact ⟨rfl, rfl⟩
  | succ k ih =>
    obtain ⟨u, hu, hstep⟩ := core_run_succ k s t h
    obtain ⟨hparams, htext⟩ := ih hu
    obtain ⟨hparams', htext'⟩ := step_sameRun hstep
    exact ⟨hparams'.trans hparams, htext'.trans htext⟩

/-- A line goes on after an instruction that is fetched and whose end is an address (R62, R100). -/
theorem lineOf_succ_of_fetch16 {m : Memory} {a : Addr} {hw : Half} (n : Nat) (hf : fetch16 m a = .ok hw)
    (hfits : a.toNat + instrLength hw < 2 ^ 32) :
    lineOf m (n + 1) a = a :: lineOf m n (a + BitVec.ofNat 32 (instrLength hw)) := by
  simp only [lineOf, hf, hfits, if_true]

/-- A line has an instruction after its first only where it goes on. -/
theorem lineOf_getElem?_tail {m : Memory} {n j : Nat} {a b : Addr} (h : (lineOf m (n + 1) a)[j + 1]? = some b) :
    ∃ hw, fetch16 m a = .ok hw ∧ a.toNat + instrLength hw < 2 ^ 32 ∧
      (lineOf m n (a + BitVec.ofNat 32 (instrLength hw)))[j]? = some b := by
  simp only [lineOf, List.getElem?_cons_succ] at h
  split at h
  · rename_i hw hf
    split at h
    · rename_i hfits
      exact ⟨hw, hf, hfits, h⟩
    · cases h
  · cases h

/-- The instruction in line after another stands its length further on (R62, R100). -/
theorem lineOf_getElem?_succ {m : Memory} {n j : Nat} {a b : Addr} {hw : Half} (hb : (lineOf m n a)[j]? = some b)
    (hj : j + 1 < n) (hf : fetch16 m b = .ok hw) (hfits : b.toNat + instrLength hw < 2 ^ 32) :
    (lineOf m n a)[j + 1]? = some (b + BitVec.ofNat 32 (instrLength hw)) := by
  obtain ⟨n, rfl⟩ : ∃ k, n = k + 1 := ⟨n - 1, by omega⟩
  induction j generalizing n a with
  | zero =>
    obtain rfl : a = b := Option.some.inj hb
    rw [lineOf_succ_of_fetch16 n hf hfits, List.getElem?_cons_succ, ← List.head?_eq_getElem?]
    exact head?_lineOf m _ (by omega)
  | succ j ih =>
    obtain ⟨hwa, hfa, hfitsa, hb'⟩ := lineOf_getElem?_tail hb
    obtain ⟨n, rfl⟩ : ∃ k, n = k + 1 := ⟨n - 1, by omega⟩
    rw [lineOf_succ_of_fetch16 _ hfa hfitsa, List.getElem?_cons_succ]
    exact ih n hb' (by omega)

/-- The slot after another stands the length of its instruction further on (R100). -/
theorem blockSlots_getElem?_succ {p : Params} {m : Memory} {j : Nat} {a b : Addr} {hw hwb : Half}
    (hb : (blockSlots p m a)[j]? = some b) (hf : fetch16 m a = .ok hw) (hj : j + 1 < blockLength (maskField hw))
    (hfb : fetch16 m b = .ok hwb) (hfits : b.toNat + instrLength hwb < 2 ^ 32) :
    (blockSlots p m a)[j + 1]? = some (b + BitVec.ofNat 32 (instrLength hwb)) := by
  obtain ⟨hw', hf', hblock, -⟩ := mem_blockSlots (List.mem_of_getElem? hb)
  obtain rfl : hw = hw' := Except.ok.inj (hf.symm.trans hf')
  rw [blockSlots_of_setsBlock hf hblock] at hb ⊢
  exact lineOf_getElem?_succ hb hj hfb hfits

/-- The Execute lines complete only where ITD controls do not disable the `IT` (R86). -/
theorem itd_allows_of_executeIT_next {firstcond : Cond} {mask : Mask} {s t : State}
    (h : executeIT firstcond mask s = .next t) :
    s.params.itd = false ∨
      (mask = 0b1000#4 ∧ ∃ next, fetchAfter 2 s = .ok next ∧ itdForbids next = false) := by
  obtain ⟨-, hallows⟩ | ⟨hstops, -⟩ | ⟨r, hstops, -⟩ := checkITEnabled_cases mask (itHalf firstcond mask) s
  · exact hallows
  · simp [executeIT, hstops] at h
  · simp [executeIT, hstops] at h

/-- An `IT` whose step completes and that sets ITSTATE has a block under the run's parameters (R83, R86, R100). -/
theorem setsBlock_of_step_next {s t : State} {hw : Half} (hfetch : Fetches s hw) (hsets : SetsITSTATE hw s)
    (h : step s = .next t) : setsBlock s.params s.text s.pc hw = true := by
  obtain ⟨hi, hexec⟩ := hsets
  obtain ⟨u, hu, -⟩ := step_next_of_fetches hfetch h
  rw [runHalf_of_isIT _ hi] at hu
  obtain ⟨hout, hfits, -⟩ := execIT_next (maskField_ne_zero hi) hu
  rw [execIT_executes (maskField_ne_zero hi) hout hexec] at hu
  refine (setsBlock_iff _ _ _ _).2 ⟨hi, hexec, hfits, ?_⟩
  obtain hitd | ⟨hmask, next, hnext, hallowed⟩ := itd_allows_of_executeIT_next hu
  · exact .inl hitd
  · exact .inr ⟨hmask, next, fetchAfter_ok hnext, hallowed⟩

/-- A step that completes in a block under `NOP` alone moves the pc over the instruction it ran (R102, R115). -/
theorem step_next_inside_nop {s t : State} (hin : inITBlock s.it = true) (ho : s.params.otherInstr = .nop)
    (h : step s = .next t) :
    ∃ hw, fetch16 s.text s.pc = .ok hw ∧ s.pc.toNat + instrLength hw < 2 ^ 32 ∧
      t.pc = s.pc + BitVec.ofNat 32 (instrLength hw) := by
  obtain ⟨hw, u, hf, hu, rfl⟩ := step_next_inside hin h
  obtain ⟨hlen, hfits, rfl⟩ := otherInstr_next_of_nop (s := s.setShouldAdvanceIT true) ho hu
  exact ⟨hw, hf, hlen ▸ hfits, hlen ▸ rfl⟩

/-- Settles O39, by induction on the steps after the `IT`: the `IT` leaves the pc at the first slot, and each `NOP` moves it
to the next one. -/
theorem blockSlotsAreExecuted : Obligations.BlockSlotsAreExecuted := by
  intro s t hw j hfetch hsets ho
  have ⟨_, _, hf⟩ := hfetch
  induction j generalizing t with
  | zero =>
    intro hj hrun
    obtain ⟨u, hu, hstep⟩ := core_run_succ 0 s t hrun
    cases hu
    obtain ⟨ht, -⟩ := stepOfITLeavesSlotOneState s t hw hfetch hsets hstep
    rw [blockSlots_of_setsBlock hf (setsBlock_of_step_next hfetch hsets hstep), ← List.head?_eq_getElem?,
      head?_lineOf _ _ hj, ht]
  | succ j ih =>
    intro hj hrun
    obtain ⟨u, hu, hstep⟩ := core_run_succ (j + 1) s t hrun
    obtain ⟨hparams, htext⟩ := core_run_sameRun hu
    have hit := blockLastsItsLength s u hw j hfetch hsets (by omega) hu
    rw [if_neg (by omega)] at hit
    have hin : inITBlock u.it = true := by
      obtain ⟨-, hslot⟩ := slotITSTATE_fields (firstcond := firstcondOf hw) (Nat.le_add_left 1 j) hj.le
      rw [hit, hslot]
    obtain ⟨hwu, hfu, hfits, hpc⟩ := step_next_inside_nop hin (hparams ▸ ho) hstep
    rw [hpc]
    exact blockSlots_getElem?_succ (ih u (by omega) hu) hf hj (htext ▸ hfu) hfits

end Sys2Proof.Machine
end

section
/-! PROOF. The end of the run (R144). First what the step answers at `P_END` inside a block and in a final state, then the
statement. -/

namespace Sys2Proof.Machine

/-- Inside a block PSTATE.IT is consistent and not zero, so the step passes the first test of R102 and stops at the second. -/
theorem step_at_end_inside {s : State} (hend : s.pc = s.params.endAddr) (hin : inITBlock s.it = true) :
    step s = .refused .endInsideITBlock := by
  have hc : inconsistentIT s.it = false := consistent_of_inITBlock hin
  have hne : s.it ≠ 0#8 := ne_zero_of_inITBlock hin
  simp [step, beginStep, hc, hend, hne]

/-- PSTATE.IT of a final state is zero, so it is consistent; the state stays as it is (log 12). -/
theorem step_of_isFinal {s : State} (h : isFinal s = true) : step s = .next s := by
  obtain ⟨hend, hzero⟩ : s.pc = s.params.endAddr ∧ s.it = 0#8 := by simpa [isFinal] using h
  have hc : inconsistentIT 0#8 = false := rfl
  simp [step, beginStep, hc, hend, hzero]

/-- Settles O20: at `P_END` the state is inside a block or it is final. -/
theorem endOfRun : Obligations.EndOfRun := by
  intro s hend
  constructor
  · intro hmask
    have hin : inITBlock s.it = true := by simpa [inITBlock, itMask] using hmask
    exact step_at_end_inside hend hin
  · intro hzero
    have hfinal : isFinal s = true := by simp [isFinal, hend, hzero]
    exact step_of_isFinal hfinal

end Sys2Proof.Machine
end
